-- ==== Sys2Proof/Word.lean ====
section
/-!
DEFINITION. The two widths of the machine, 12-bit words and 8-bit addresses, and the two narrowings
`trunc12` and `trunc8` of 00_scope.md R8.
-/

namespace Sys2Proof

/-- A memory word, an accumulator value or an instruction word: 12 bits, unsigned at rest (R5, R9 Word). -/
abbrev Word := BitVec 12

/-- An address or a program counter value: 8 bits (R5, R9 Address). -/
abbrev Addr := BitVec 8

/-- The opcode field: 4 bits (R5, R50). -/
abbrev OpNibble := BitVec 4

/-- `n mod 4096`, for any integer (R8 `trunc12`). -/
def trunc12 (n : Int) : Word := BitVec.ofInt 12 n

/-- `n mod 256`, for any integer (R8 `trunc8`). -/
def trunc8 (n : Int) : Addr := BitVec.ofInt 8 n

end Sys2Proof
end

