-- ==== Sys2Proof/Config.lean ====
section
/-!
DEFINITION. What is fixed for this hardware (00_scope.md R5) and the values the spec leaves open: the contents
of a core that was never loaded or whose Load failed (93_implementation_defined.md U1, U2) and the final newline
of the host's output texts (U9). An open value is an opaque constant: nothing can be proved about which value it is.
-/

namespace Sys2Proof

/-- MEM_CELLS (R5): 256 memory cells. -/
def Config.memCells : Nat := 256

/-- The number of 12-bit words (R5 WORD_BITS): word values at rest are 0..4095. -/
def Config.wordCount : Nat := 4096

/-- ACCEPT_LOWER_HEX (93_implementation_defined.md U7): "default false". DESIGN CHOICE of the spec, log 8. -/
def Config.acceptLowerHex : Bool := false

/-- PC of a core on which Load was never called: not given (70 R175, 91 N5). Free value, log 4. -/
opaque Config.constructedPc : Addr

/-- ACC of a core on which Load was never called: not given (70 R175, 91 N5). Free value, log 4. -/
opaque Config.constructedAcc : Word

/-- The cells of a core on which Load was never called: not given (70 R175, 91 N5). Free value, log 4. -/
opaque Config.constructedCell : Addr → Word

/-- PC after a failed Load of the given file contents (none: it could not be read), from the state held before:
not fixed (45 R134, 93 U2). Free value, log 4. -/
opaque Config.failedLoadPc : Option (List Char) → Addr → Word → List (Nat × Word) → List Word → Addr

/-- ACC after a failed Load: not fixed (45 R134, 93 U2). Free value, log 4. -/
opaque Config.failedLoadAcc : Option (List Char) → Addr → Word → List (Nat × Word) → List Word → Word

/-- The cells after a failed Load: not fixed (45 R134, 93 U2). Free value, log 4. -/
opaque Config.failedLoadCell : Option (List Char) → Addr → Word → List (Nat × Word) → List Word → Addr → Word

/-- The Trace after a failed Load: not fixed (45 R134, 93 U2). Free value, log 4. -/
opaque Config.failedLoadTrace : Option (List Char) → Addr → Word → List (Nat × Word) → List Word → List Word

/-- Whether the snapshot file ends with a newline: left open (93 U9). Free value, log 9. -/
opaque Config.snapshotFinalNewline : Bool

/-- Whether a trace file of this many records ends with a newline: left open, the empty trace too (93 U9).
Free value, log 9. -/
opaque Config.traceFinalNewline : Nat → Bool

end Sys2Proof
end

