-- ==== Sys2Proof/Syntax.lean ====
section
/-!
DEFINITION. The instructions: one constructor per row of spec/opcode_table.json (30_encoding.md R54), in the
table's order, each with the 8-bit operand `a` of the one instruction format (R50).
-/

namespace Sys2Proof

/-- The sixteen instructions of R54. The operand of HALT and of the six undefined opcodes is ignored by execution
but is part of the word, of the trace record and of the step's output (R57), so it is kept. -/
inductive Instr where
  /-- opcode 0x0, undefined, no-op (R120) -/
  | op0 (a : Addr)
  /-- opcode 0x1, undefined, no-op (R121) -/
  | op1 (a : Addr)
  /-- opcode 0x2, subtract memory from accumulator (R90) -/
  | sub (a : Addr)
  /-- opcode 0x3, add memory to accumulator (R91) -/
  | add (a : Addr)
  /-- opcode 0x4, load accumulator direct (R100) -/
  | load (a : Addr)
  /-- opcode 0x5, store accumulator direct (R101) -/
  | store (a : Addr)
  /-- opcode 0x6, load accumulator indirect (R102) -/
  | loadi (a : Addr)
  /-- opcode 0x7, store accumulator indirect (R103) -/
  | storei (a : Addr)
  /-- opcode 0x8, jump if accumulator is zero (R110) -/
  | jz (a : Addr)
  /-- opcode 0x9, jump if accumulator is negative (R111) -/
  | jn (a : Addr)
  /-- opcode 0xA, jump unconditionally (R112) -/
  | jmp (a : Addr)
  /-- opcode 0xB, undefined, no-op (R122) -/
  | opb (a : Addr)
  /-- opcode 0xC, undefined, no-op (R123) -/
  | opc (a : Addr)
  /-- opcode 0xD, undefined, no-op (R124) -/
  | opd (a : Addr)
  /-- opcode 0xE, undefined, no-op (R125) -/
  | ope (a : Addr)
  /-- opcode 0xF, re-point PC at this instruction (R113) -/
  | halt (a : Addr)
  deriving DecidableEq, Repr

end Sys2Proof
end

