-- ==== Sys2Proof/WellFormed.lean ====
section
/-!
DEFINITION. Well-formedness. Every term of Instr is a legal instruction, because its one field is an 8-bit address
by type and no encoding is illegal (30_encoding.md R55, R56); a number is a legal instruction word when it fits
12 bits (R50, R54).
-/

namespace Sys2Proof

/-- A number is an instruction word when it is one of the 4096 words of R54. -/
def wordInRange (w : Nat) : Bool := decide (w < Config.wordCount)

/-- The operand of every instruction is an address, 0..255 (R52). The type grants it, so no Instr is ill-formed. -/
def Instr.wellFormed : Instr → Bool
  | .op0 a | .op1 a | .sub a | .add a | .load a | .store a | .loadi a | .storei a
  | .jz a | .jn a | .jmp a | .opb a | .opc a | .opd a | .ope a | .halt a => decide (a.toNat < Config.memCells)

end Sys2Proof
end

