-- ==== Sys2Proof/Decode.lean ====
section
/-!
DEFINITION. The decoder, total over all 4096 words (30_encoding.md R50, R54, R55), and after it the encoder, the
mnemonics (R59) and the host's entry point `decodeTableWord`.
-/

namespace Sys2Proof

/-- Bits 11..8 of an instruction word (R50). -/
def opcodeOf (w : Word) : OpNibble := w.extractLsb' 8 4

/-- Bits 7..0 of an instruction word (R50, R52). -/
def operandOf (w : Word) : Addr := w.extractLsb' 0 8

/-- The rows of R54 read by their binary column, bits 11, 10, 9, 8 of the word. All sixteen are written out, the
undefined opcodes too, so no word falls through to a neighbour (R55, R56). -/
def decodeRow (op : OpNibble) (a : Addr) : Instr :=
  match op.getLsbD 3, op.getLsbD 2, op.getLsbD 1, op.getLsbD 0 with
  | false, false, false, false => .op0 a
  | false, false, false, true => .op1 a
  | false, false, true, false => .sub a
  | false, false, true, true => .add a
  | false, true, false, false => .load a
  | false, true, false, true => .store a
  | false, true, true, false => .loadi a
  | false, true, true, true => .storei a
  | true, false, false, false => .jz a
  | true, false, false, true => .jn a
  | true, false, true, false => .jmp a
  | true, false, true, true => .opb a
  | true, true, false, false => .opc a
  | true, true, false, true => .opd a
  | true, true, true, false => .ope a
  | true, true, true, true => .halt a

/-- Phase 3 of the step (40 R73): the instruction a word is. Total: the decoder never refuses a word (R55). -/
def decode (w : Word) : Instr := decodeRow (opcodeOf w) (operandOf w)

/-- The `op` column of R54. -/
def Instr.opcode : Instr → OpNibble
  | .op0 _ => 0x0
  | .op1 _ => 0x1
  | .sub _ => 0x2
  | .add _ => 0x3
  | .load _ => 0x4
  | .store _ => 0x5
  | .loadi _ => 0x6
  | .storei _ => 0x7
  | .jz _ => 0x8
  | .jn _ => 0x9
  | .jmp _ => 0xA
  | .opb _ => 0xB
  | .opc _ => 0xC
  | .opd _ => 0xD
  | .ope _ => 0xE
  | .halt _ => 0xF

/-- The operand field of an instruction (R52). -/
def Instr.operand : Instr → Addr
  | .op0 a | .op1 a | .sub a | .add a | .load a | .store a | .loadi a | .storei a
  | .jz a | .jn a | .jmp a | .opb a | .opc a | .opd a | .ope a | .halt a => a

/-- The instruction word: opcode in bits 11..8, operand in bits 7..0 (R50, format A). -/
def encode (i : Instr) : Word := i.opcode ++ i.operand

/-- The mnemonic column of R54; the undefined opcodes are `OP` and one upper-case hexadecimal digit (R59; the case
is 92_eei_decisions.md D6, log 9). -/
def Instr.mnemonic : Instr → String
  | .op0 _ => "OP0"
  | .op1 _ => "OP1"
  | .sub _ => "SUB"
  | .add _ => "ADD"
  | .load _ => "LOAD"
  | .store _ => "STORE"
  | .loadi _ => "LOADI"
  | .storei _ => "STOREI"
  | .jz _ => "JZ"
  | .jn _ => "JN"
  | .jmp _ => "JMP"
  | .opb _ => "OPB"
  | .opc _ => "OPC"
  | .opd _ => "OPD"
  | .ope _ => "OPE"
  | .halt _ => "HALT"

/-- The number of the instruction word given by the low `nbits` bits of `w`, the bits above them zero. -/
def tableWordNumber (nbits w : Nat) : Nat := w % 2 ^ nbits

/-- The instruction whose bits are `w`, numbered as spec/opcode_table.json numbers them. A number of more than
12 bits is no instruction word (log 10). -/
def decodeTableWord (nbits w : Nat) : Option Instr :=
  if wordInRange (tableWordNumber nbits w) then some (decode (BitVec.ofNat 12 (tableWordNumber nbits w))) else none

end Sys2Proof
end

