-- ==== Sys2Proof/Machine/State.lean ====
section
/-!
DEFINITION. The state of the machine (10_state.md R10, R24), the reasons a step can stop, and the state after reset.
-/

namespace Sys2Proof.Machine

/-- The 256 cells of MEM (R22) as a list of address and word pairs: addresses strictly rising, no pair whose word
is 0, which is what an unlisted cell reads as (70 R173). The cells are 12-bit words, the only unit the machine has
(20 R31; log 1). -/
abbrev Memory := List (Nat × Word)

/-- Everything the machine holds between two steps. The spec's architectural state is `pc`, `acc` and `mem` (R10);
`trace` is the host-side Trace (R24, log 5) and `loaded` the model's own mark of a successful Load (70 R175, log 3). -/
structure State where
  /-- PC, the address of the next instruction to be fetched (R13) -/
  pc : Addr
  /-- ACC, the accumulator (R18) -/
  acc : Word
  /-- MEM (R22) -/
  mem : Memory
  /-- the instruction words executed since the last Load, oldest first (R24, 45 R137); the last one is `ir_out` -/
  trace : List Word
  /-- whether the last Load succeeded; a core that is not loaded has no step (70 R175) -/
  loaded : Bool
  deriving DecidableEq, Repr

/-- The hardware has no fault, exception, interrupt or trap (60 R150, R151, R154; 40 R78), so there is no reason to
list: the type is empty and no step ends in a fault. Exact, neither more nor less than the spec. -/
inductive Fault where
  deriving DecidableEq, Repr

/-- The reasons the model gives a step no meaning. -/
inductive Refusal where
  /-- An arm of `exec` whose instruction has no meaning yet; raised by no arm of this model. Safe: the machine stops
  where the hardware goes on. -/
  | notModelled (mnemonic : String)
  /-- Raised by `step` on a core that was never successfully loaded (70 R175, 93 U1, U2: "refuse"). Safe: the spec
  gives such a step no effect, and the model proves nothing about it (log 3). -/
  | notLoaded
  deriving DecidableEq, Repr

/-- The machine right after reset. Reset is the host's successful Load, whose PC_INIT, ACC_INIT and MEM_INIT are open
parameters (70 R170 to R173; see `State.hostReset`); this is the Load of a header of zeros with no memory line.
DESIGN CHOICE for `pc` and `acc` and for assigning no cell (log 2); unassigned cells are 0 (R173) and the Trace is
empty (R174) by the spec. -/
def State.reset : State := { pc := 0, acc := 0, mem := [], trace := [], loaded := true }

end Sys2Proof.Machine
end

