-- ==== Sys2Proof/Machine/Ops.lean ====
section
/-!
DEFINITION. The named operations over memory and registers: reading and writing a cell, the register updates, the
address adder (40 R83), the ALU (40 R84), fetch, advance, mask and trace (40 R71, R72, R75, R76), and the host's reset
event (70 R170). There is no operation that takes an exception and none that returns from one, because the machine
has neither (60 R150, R151, R154, R155).
-/

namespace Sys2Proof.Machine

open Host

/-! ### Memory -/

/-- The content of cell `a`: MemRead (R8); a cell that is not listed reads 0 (70 R173). -/
def Memory.read : Memory → Addr → Word
  | [], _ => 0
  | (k, x) :: m, a => if k = a.toNat then x else Memory.read m a

/-- The memory without any entry for address `k`. -/
def Memory.erase : Memory → Nat → Memory
  | [], _ => []
  | (j, x) :: m, k => if j = k then Memory.erase m k else (j, x) :: Memory.erase m k

/-- The memory with an entry for `k` put before the first greater address. -/
def Memory.insert : Memory → Nat → Word → Memory
  | [], k, v => [(k, v)]
  | (j, x) :: m, k, v => if k < j then (k, v) :: (j, x) :: m else (j, x) :: Memory.insert m k v

/-- MemWrite (R8, 20 R36): cell `a` takes `v`, every other cell keeps its word. The word 0 is not listed, so the
canonical form is kept. -/
def Memory.write (m : Memory) (a : Addr) (v : Word) : Memory :=
  if v = 0 then m.erase a.toNat else (m.erase a.toNat).insert a.toNat v

/-- The canonical form from address `lo` on: strictly rising addresses, below 256, no word 0. -/
def Memory.wfFrom : Nat → Memory → Bool
  | _, [] => true
  | lo, (k, x) :: m => decide (lo ≤ k) && decide (k < Config.memCells) && decide (x ≠ 0) && Memory.wfFrom (k + 1) m

/-- The canonical form of a memory (R11: exactly the addresses 0..255, each cell 12 bits). -/
def Memory.wf (m : Memory) : Bool := Memory.wfFrom 0 m

/-- `n` cells from address `k` on, as the function gives them, in canonical form. -/
def Memory.ofFnFrom (f : Addr → Word) : Nat → Nat → Memory
  | 0, _ => []
  | n + 1, k =>
    if f (BitVec.ofNat 8 k) = 0 then Memory.ofFnFrom f n (k + 1)
    else (k, f (BitVec.ofNat 8 k)) :: Memory.ofFnFrom f n (k + 1)

/-- The memory whose 256 cells are given by a total function on addresses, such as MEM_INIT (R6). -/
def Memory.ofFn (f : Addr → Word) : Memory := Memory.ofFnFrom f Config.memCells 0

/-! ### Registers and cells of a state -/

/-- `PC <- v` (R8). -/
def State.setPc (s : State) (v : Addr) : State := { s with pc := v }

/-- `ACC <- v` (R8). -/
def State.setAcc (s : State) (v : Word) : State := { s with acc := v }

/-- `MemRead(a, 12)` (R8). -/
def State.readMem (s : State) (a : Addr) : Word := s.mem.read a

/-- `MemWrite(a, 12, v)` (R8). -/
def State.writeMem (s : State) (a : Addr) (v : Word) : State := { s with mem := s.mem.write a v }

/-- One record appended to the Trace, the instruction word of the step (40 R76, 10 R24). -/
def State.record (s : State) (ir : Word) : State := { s with trace := s.trace ++ [ir] }

/-- `ir_out`, the word of the step just performed; none before the first step after a Load (40 R77, R81). -/
def State.irOut (s : State) : Option Word := s.trace.getLast?

/-! ### The address adder and the ALU -/

/-- The address adder's increment, dropping the carry out of bit 7 (40 R83). -/
def addrInc (x : Addr) : Addr := trunc8 ((x.toNat : Int) + 1)

/-- The address adder's decrement, dropping the borrow (40 R83). -/
def addrDec (x : Addr) : Addr := trunc8 ((x.toNat : Int) - 1)

/-- The ALU's ADD, the exact sum narrowed to 12 bits (40 R84, 41 R92). -/
def aluAdd (x y : Word) : Word := trunc12 ((x.toNat : Int) + (y.toNat : Int))

/-- The ALU's SUB, the exact difference narrowed to 12 bits (40 R84, 41 R92). -/
def aluSub (x y : Word) : Word := trunc12 ((x.toNat : Int) - (y.toNat : Int))

/-- The ALU's PASS, the word read from memory (40 R84). -/
def aluPass (_x y : Word) : Word := y

/-! ### The phases common to every instruction -/

/-- Phase 1: the instruction word at PC (40 R71). -/
def State.fetch (s : State) : Word := s.readMem s.pc

/-- Phase 2: PC advanced by one, for every instruction, before decode (40 R72). -/
def State.advancePc (s : State) : State := s.setPc (addrInc s.pc)

/-- Phase 5: ACC masked to 12 bits (40 R75), the identity on a 12-bit ACC (10 R19). -/
def State.maskAcc (s : State) : State := s.setAcc (trunc12 (s.acc.toNat : Int))

/-- Phases 5 to 7 on the outcome of phase 4: mask, record the fetched word, which is also the step's output
(40 R75 to R77). -/
def retire (ir : Word) : Outcome State Fault Refusal → Outcome State Fault Refusal
  | .next s => .next (s.maskAcc.record ir)
  | .fault f => .fault f
  | .refused r => .refused r

/-! ### Reset -/

/-- The event `reset(PC_INIT, ACC_INIT, MEM_INIT)` (70 R170): the whole state set at once, the Trace empty, whatever
the state was before. -/
def State.hostReset (pcInit : Addr) (accInit : Word) (memInit : Addr → Word) : State :=
  { pc := pcInit, acc := accInit, mem := Memory.ofFn memInit, trace := [], loaded := true }

end Sys2Proof.Machine
end

