-- ==== Sys2Proof/Machine/Operands.lean ====
section
/-!
DEFINITION. The two addressing modes for data (42_load_store.md R104): direct and indirect.
-/

namespace Sys2Proof.Machine

/-- Direct: the effective address is the operand as it stands (R104, 30 R52). -/
def directAddr (a : Addr) : Addr := a

/-- The address a pointer word names: its low 8 bits, the high 4 ignored (30 R53). -/
def pointerAddr (w : Word) : Addr := w.extractLsb' 0 8

/-- Indirect: the effective address is held in the low 8 bits of the pointer cell; one level only (R104). -/
def indirectAddr (s : State) (a : Addr) : Addr := pointerAddr (s.readMem a)

/-- The data word of a direct operand. -/
def directWord (s : State) (a : Addr) : Word := s.readMem (directAddr a)

/-- The data word of an indirect operand. -/
def indirectWord (s : State) (a : Addr) : Word := s.readMem (indirectAddr s a)

end Sys2Proof.Machine
end

