-- ==== Sys2Proof/Machine/Arithmetic.lean ====
section
/-!
DEFINITION. The meanings (phase 4) of SUB and ADD (41_arithmetic.md).
-/

namespace Sys2Proof.Machine

open Host

/-- SUB (R90): ACC minus the direct operand, modulo 4096. -/
def execSub (a : Addr) (s : State) : Outcome State Fault Refusal :=
  .next (s.setAcc (aluSub s.acc (directWord s a)))

/-- ADD (R91): ACC plus the direct operand, modulo 4096. -/
def execAdd (a : Addr) (s : State) : Outcome State Fault Refusal :=
  .next (s.setAcc (aluAdd s.acc (directWord s a)))

end Sys2Proof.Machine
end

