-- ==== Sys2Proof/Machine/LoadStore.lean ====
section
/-!
DEFINITION. The meanings (phase 4) of LOAD, STORE, LOADI and STOREI (42_load_store.md).
-/

namespace Sys2Proof.Machine

open Host

/-- LOAD (R100): ACC takes the direct operand, passed through the ALU (40 R82). -/
def execLoad (a : Addr) (s : State) : Outcome State Fault Refusal :=
  .next (s.setAcc (aluPass s.acc (directWord s a)))

/-- STORE (R101): the direct cell takes ACC. -/
def execStore (a : Addr) (s : State) : Outcome State Fault Refusal :=
  .next (s.writeMem (directAddr a) s.acc)

/-- LOADI (R102): ACC takes the indirect operand. -/
def execLoadi (a : Addr) (s : State) : Outcome State Fault Refusal :=
  .next (s.setAcc (aluPass s.acc (indirectWord s a)))

/-- STOREI (R103): the cell the pointer names, read before the write, takes ACC. -/
def execStorei (a : Addr) (s : State) : Outcome State Fault Refusal :=
  .next (s.writeMem (indirectAddr s a) s.acc)

end Sys2Proof.Machine
end

