-- ==== Sys2Proof/Machine/Flags.lean ====
section
/-!
DEFINITION. The accumulator's condition logic (40_step_cycle.md R85). The core has no flags (10 R20): both
conditions are functions of the current ACC.
-/

namespace Sys2Proof.Machine

/-- The signed reading of a word: v when bit 11 is 0, v - 4096 when it is 1 (R8 `sext_12`, 90_conflicts.md C3). -/
def sext12 (v : Word) : Int := if v.getLsbD 11 then (v.toNat : Int) - 4096 else (v.toNat : Int)

/-- `is_zero`: all 12 bits are 0 (R85), tested by JZ. -/
def isZero (v : Word) : Bool := decide (v = 0)

/-- `is_negative`: the signed reading is below zero (R85, 43 R111), tested by JN. -/
def isNegative (v : Word) : Bool := decide (sext12 v < 0)

end Sys2Proof.Machine
end

