-- ==== Sys2Proof/Machine/Transfer.lean ====
section
/-!
DEFINITION. The meanings (phase 4) of JZ, JN, JMP and HALT (43_control_transfer.md). PC already holds the address
of the following instruction here (10 R14).
-/

namespace Sys2Proof.Machine

open Host

/-- A branch to the absolute address `a` when the condition holds, else nothing (R114). -/
def branchIf (c : Bool) (a : Addr) (s : State) : State := if c then s.setPc a else s

/-- JZ (R110): taken when ACC = 0. -/
def execJz (a : Addr) (s : State) : Outcome State Fault Refusal :=
  .next (branchIf (isZero s.acc) a s)

/-- JN (R111): taken when the signed reading of ACC is negative. -/
def execJn (a : Addr) (s : State) : Outcome State Fault Refusal :=
  .next (branchIf (isNegative s.acc) a s)

/-- JMP (R112): always taken. -/
def execJmp (a : Addr) (s : State) : Outcome State Fault Refusal :=
  .next (branchIf true a s)

/-- HALT (R113): PC steps back onto the HALT; the operand is ignored (30 R57). -/
def execHalt (_a : Addr) (s : State) : Outcome State Fault Refusal :=
  .next (s.setPc (addrDec s.pc))

end Sys2Proof.Machine
end

