-- ==== Sys2Proof/Machine/UndefinedOps.lean ====
section
/-!
DEFINITION. The meanings (phase 4) of the six undefined opcodes (44_undefined_opcodes.md): executed as no-ops, the
operand ignored (R126). The advance of PC is phase 2 of the step (90_conflicts.md C2).
-/

namespace Sys2Proof.Machine

open Host

/-- OP0 (R120). -/
def execOp0 (_a : Addr) (s : State) : Outcome State Fault Refusal := .next s

/-- OP1 (R121). -/
def execOp1 (_a : Addr) (s : State) : Outcome State Fault Refusal := .next s

/-- OPB (R122). -/
def execOpb (_a : Addr) (s : State) : Outcome State Fault Refusal := .next s

/-- OPC (R123). -/
def execOpc (_a : Addr) (s : State) : Outcome State Fault Refusal := .next s

/-- OPD (R124). -/
def execOpd (_a : Addr) (s : State) : Outcome State Fault Refusal := .next s

/-- OPE (R125). -/
def execOpe (_a : Addr) (s : State) : Outcome State Fault Refusal := .next s

end Sys2Proof.Machine
end

