-- ==== Sys2Proof/Machine/Dispatch.lean ====
section
/-! DEFINITION. Phase 4 of the step (40_step_cycle.md R74): one arm per instruction, one direct call of its meaning. -/

namespace Sys2Proof.Machine

open Host

def exec (i : Instr) (s : State) : Host.Outcome State Fault Refusal :=
  match i with
  | .op0 a => Sys2Proof.Machine.execOp0 a s
  | .op1 a => Sys2Proof.Machine.execOp1 a s
  | .sub a => Sys2Proof.Machine.execSub a s
  | .add a => Sys2Proof.Machine.execAdd a s
  | .load a => Sys2Proof.Machine.execLoad a s
  | .store a => Sys2Proof.Machine.execStore a s
  | .loadi a => Sys2Proof.Machine.execLoadi a s
  | .storei a => Sys2Proof.Machine.execStorei a s
  | .jz a => Sys2Proof.Machine.execJz a s
  | .jn a => Sys2Proof.Machine.execJn a s
  | .jmp a => Sys2Proof.Machine.execJmp a s
  | .opb a => Sys2Proof.Machine.execOpb a s
  | .opc a => Sys2Proof.Machine.execOpc a s
  | .opd a => Sys2Proof.Machine.execOpd a s
  | .ope a => Sys2Proof.Machine.execOpe a s
  | .halt a => Sys2Proof.Machine.execHalt a s

end Sys2Proof.Machine
end

