-- ==== Sys2Proof/Machine/Step.lean ====
section
/-!
DEFINITION. One step (40_step_cycle.md R70 to R77): fetch, advance, decode, execute, mask, trace and output; and the
host's entry point that places an instruction where the next step fetches it.
-/

namespace Sys2Proof.Machine

open Host

/-- One whole instruction. A core that was not successfully loaded has no step (70 R175, log 3). -/
def step (s : State) : Outcome State Fault Refusal :=
  match s.loaded with
  | true => retire s.fetch (exec (decode s.fetch) s.advancePc)
  | false => .refused .notLoaded

/-- `s` with the instruction whose bits are `w` in the cell PC addresses, and marked loaded, as the host's Load of an
image with that cell would leave it (log 6, log 10). -/
def State.withFetchWord (s : State) (nbits w : Nat) : State :=
  { s.writeMem s.pc (BitVec.ofNat 12 (tableWordNumber nbits w)) with loaded := true }

end Sys2Proof.Machine
end

