-- ==== Sys2Proof/Machine/Arbiter.lean ====
section
/-!
DEFINITION. The memory arbiter: the accesses of one step, in order, on the one port (20_memory.md R44). The list is a
second view of the step, for statements about it; `step` does not read it (log 7).
-/

namespace Sys2Proof.Machine

/-- One access of the memory port: a read of a cell, or the write of a word into a cell (R35, R44). -/
inductive Access where
  /-- a 12-bit read -/
  | read (addr : Addr)
  /-- a 12-bit write -/
  | write (addr : Addr) (value : Word)
  deriving DecidableEq, Repr

/-- Accesses 2 and 3 of R44, those of phase 4, for an instruction executed in the given state. -/
def execAccesses (i : Instr) (s : State) : List Access :=
  match i with
  | .sub a | .add a | .load a => [.read a]
  | .store a => [.write a s.acc]
  | .loadi a => [.read a, .read (indirectAddr s a)]
  | .storei a => [.read a, .write (indirectAddr s a) s.acc]
  | .jz _ | .jn _ | .jmp _ | .halt _ => []
  | .op0 _ | .op1 _ | .opb _ | .opc _ | .opd _ | .ope _ => []

/-- All accesses of the step from `s`: the fetch first (R44). -/
def accesses (s : State) : List Access := .read s.pc :: execAccesses (decode s.fetch) s

/-- The cell an access reads, if it is a read. -/
def Access.readAddr : Access → Option Addr
  | .read a => some a
  | .write _ _ => none

/-- The cell an access writes, if it is a write. -/
def Access.writeAddr : Access → Option Addr
  | .read _ => none
  | .write a _ => some a

/-- The cells the step from `s` reads, in order. -/
def readCells (s : State) : List Addr := (accesses s).filterMap Access.readAddr

/-- The cells the step from `s` writes: at most one (R44). -/
def writtenCells (s : State) : List Addr := (accesses s).filterMap Access.writeAddr

end Sys2Proof.Machine
end

