-- ==== Sys2Proof/Machine/Datapath.lean ====
section
/-!
DEFINITION. The core as its sub-blocks (40_step_cycle.md R80): the decoder's control table (R82) and the datapath it
drives. A second description of the step, for the statement that both agree; `step` does not read it (log 7).
-/

namespace Sys2Proof.Machine

/-- The ALU function column of R82. -/
inductive AluFn where
  | none
  | sub
  | add
  | pass
  deriving DecidableEq, Repr

/-- What PC holds after phase 4, the `pc_sel` column of R82. -/
inductive PcSel where
  /-- keep trunc8(P + 1) -/
  | seq
  /-- load the operand -/
  | target
  /-- load the operand when ACC = 0 -/
  | ifZ
  /-- load the operand when bit 11 of ACC is 1 -/
  | ifN
  /-- load trunc8(PC - 1) -/
  | back
  deriving DecidableEq, Repr

/-- The decoder's outputs (R82). -/
structure Control where
  /-- access 2 is a read of the operand cell -/
  rdA : Bool
  /-- there is an access 3 at the pointer's address -/
  ind : Bool
  /-- the last access is a write of ACC -/
  memWe : Bool
  /-- ACC takes the ALU result -/
  accWe : Bool
  /-- the ALU function -/
  aluFn : AluFn
  /-- the PC selection -/
  pcSel : PcSel
  deriving DecidableEq, Repr

/-- The rows of the control table that keep the sequential PC. -/
def Control.seqRow (rdA ind memWe accWe : Bool) (fn : AluFn) : Control := ⟨rdA, ind, memWe, accWe, fn, .seq⟩

/-- The rows of the control table that use neither memory nor the ALU. -/
def Control.pcRow (sel : PcSel) : Control := ⟨false, false, false, false, .none, sel⟩

/-- The control table of R82, by opcode number. -/
def controlTable : List Control :=
  [ .pcRow .seq, .pcRow .seq,
    .seqRow true false false true .sub,
    .seqRow true false false true .add,
    .seqRow true false false true .pass,
    .seqRow false false true false .none,
    .seqRow true true false true .pass,
    .seqRow true true true false .none ] ++
  [ .pcRow .ifZ, .pcRow .ifN, .pcRow .target,
    .pcRow .seq, .pcRow .seq, .pcRow .seq, .pcRow .seq,
    .pcRow .back ]

/-- The decoder (R80, R82): the control values of an opcode. -/
def controlOf (op : OpNibble) : Control := controlTable.getD op.toNat (.pcRow .seq)

/-- The 12-bit ALU (R84); with no function selected its result is not used. -/
def alu : AluFn → Word → Word → Word
  | .none, x, _ => x
  | .sub, x, y => aluSub x y
  | .add, x, y => aluAdd x y
  | .pass, x, y => aluPass x y

/-- The instruction fetch unit's next PC (R80, R82), from the advanced PC, the operand and ACC before phase 4. -/
def selectPc : PcSel → Addr → Addr → Word → Addr
  | .seq, pc, _, _ => pc
  | .target, _, a, _ => a
  | .ifZ, pc, a, acc => if acc = 0 then a else pc
  | .ifN, pc, a, acc => if acc.getLsbD 11 then a else pc
  | .back, pc, _, _ => addrDec pc

/-- One step through the sub-blocks: fetch unit, decoder, memory and arbiter, ALU, accumulator (R80). -/
def datapathStep (s : State) : State :=
  let ir := s.mem.read s.pc
  let a := operandOf ir
  let c := controlOf (opcodeOf ir)
  let word2 := if c.rdA then s.mem.read a else 0
  let ea := if c.ind then pointerAddr word2 else a
  let b := if c.ind then s.mem.read ea else word2
  { s with
    pc := selectPc c.pcSel (addrInc s.pc) a s.acc
    acc := if c.accWe then alu c.aluFn s.acc b else s.acc
    mem := if c.memWe then s.mem.write ea s.acc else s.mem
    trace := s.trace ++ [ir] }

end Sys2Proof.Machine
end

