-- ==== Sys2Proof/Machine/HostInterface.lean ====
section
/-!
DEFINITION. The operations through which the host drives and observes the core (45_host_interface.md), texts as lists
of characters: Load and its text format, the read-outs, the snapshot, the trace, the driver's contract, and the
requests at a step boundary (40 R81, 60 R153). The instructions read none of it.
-/

namespace Sys2Proof.Machine

open Host

/-- A text. -/
abbrev Text := List Char

/-! ### Numbers as text, most significant first (20 R33) -/

/-- `bin_N(v)`: exactly `n` characters 0 or 1 (R8). -/
def binText : Nat → Nat → Text
  | 0, _ => []
  | n + 1, v => (if v.testBit n then '1' else '0') :: binText n v

/-- The sixteen digits, upper case (92_eei_decisions.md D6, log 9). -/
def hexDigits : Text := ['0', '1', '2', '3', '4', '5', '6', '7', '8', '9', 'A', 'B', 'C', 'D', 'E', 'F']

/-- One hexadecimal digit. -/
def hexDigit (v : Nat) : Char := hexDigits.getD v '0'

/-- `hex2(v)`: exactly two hexadecimal digits (R8). -/
def hex2 (v : Addr) : Text := [hexDigit (v.toNat / 16), hexDigit (v.toNat % 16)]

/-- `bin_8` of an address. -/
def addrText (a : Addr) : Text := binText 8 a.toNat

/-- `bin_12` of a word. -/
def wordText (w : Word) : Text := binText 12 w.toNat

/-- The bit a character of a binary token stands for. -/
def bitValue (c : Char) : Option Nat := if c = '0' then some 0 else if c = '1' then some 1 else none

/-- The number of a binary token read from the left, `acc` being what stands before it. -/
def binValue : Nat → Text → Option Nat
  | acc, [] => some acc
  | acc, c :: cs =>
    match bitValue c with
    | some b => binValue (2 * acc + b) cs
    | none => none

/-- A binary token: exactly `n` characters, each 0 or 1 (R134). -/
def parseBinary (n : Nat) (t : Text) : Option Nat := if t.length = n then binValue 0 t else none

/-- The value of a hexadecimal digit; lower case only where the parameter allows it (93 U7). -/
def hexValue (lower : Bool) (c : Char) : Option Nat :=
  if '0' ≤ c ∧ c ≤ '9' then some (c.toNat - 48)
  else if 'A' ≤ c ∧ c ≤ 'F' then some (c.toNat - 55)
  else if lower ∧ 'a' ≤ c ∧ c ≤ 'f' then some (c.toNat - 87)
  else none

/-- An address token: exactly two hexadecimal digits (R131, 93 U6). -/
def parseAddr (lower : Bool) : Text → Option Addr
  | [h, l] =>
    match hexValue lower h, hexValue lower l with
    | some x, some y => some (BitVec.ofNat 8 (16 * x + y))
    | _, _ => none
  | _ => none

/-! ### The load description (R131 to R135) -/

/-- A load description: the header and the memory lines in file order. -/
structure Description where
  /-- the header's first value, PC_INIT -/
  pc : Addr
  /-- the header's second value, ACC_INIT -/
  acc : Word
  /-- the assignments, in file order -/
  cells : List (Addr × Word)
  deriving DecidableEq, Repr

/-- A text cut at every separator. -/
def splitAtChar (sep : Char) : Text → List Text
  | [] => [[]]
  | c :: cs =>
    if c = sep then [] :: splitAtChar sep cs
    else
      match splitAtChar sep cs with
      | [] => [[c]]
      | t :: ts => (c :: t) :: ts

/-- A line without its comment: `#` to the end of the line (R131). -/
def uncommented (line : Text) : Text := line.takeWhile (fun c => decide (c ≠ '#'))

/-- The tokens of a line, its comment removed first (R131). Tokens are separated by one single space: what further
white space means is open, and any of it gives a token no line may hold (93 U4, log 8). -/
def tokensOf (line : Text) : List Text := splitAtChar ' ' (uncommented line)

/-- The characters a line may hold before its comment: printable ASCII. Which others separate tokens is open
(93 U4, U8, log 8). -/
def lineChar (c : Char) : Bool := decide (32 ≤ c.toNat) && decide (c.toNat ≤ 126)

/-- The characters a comment may hold: its text is discarded, whatever it is (R131). Only the encoding of a character
beyond ASCII and whether a carriage return ends the line are open (R135, 93 U8, log 8). -/
def commentChar (c : Char) : Bool := decide (c.toNat ≤ 127) && decide (c ≠ '\r')

/-- A line that holds nothing the spec leaves open: `lineChar` up to the comment mark, `commentChar` from it on. -/
def readableLine (line : Text) : Bool :=
  (uncommented line).all lineChar && (line.drop (uncommented line).length).all commentChar

/-- The header, the first line that is not blank (R131), and the lines after it; none when it is missing or is not
exactly two binary tokens of 8 and 12 digits (R134, 93 U5). -/
def parseHeader : List Text → Option (Addr × Word × List Text)
  | [] => none
  | l :: ls =>
    match tokensOf l with
    | [[]] => parseHeader ls
    | [p, w] =>
      match parseBinary 8 p, parseBinary 12 w with
      | some x, some y => some (BitVec.ofNat 8 x, BitVec.ofNat 12 y, ls)
      | _, _ => none
    | _ => none

/-- The memory lines: a line of fewer than two tokens is skipped (R131); a bad word fails (R134, 90_conflicts.md C8);
a bad address or a third token is open and fails too (93 U5, U6, log 8). -/
def parseCells (lower : Bool) : List Text → Option (List (Addr × Word))
  | [] => some []
  | l :: ls =>
    match tokensOf l with
    | [_] => parseCells lower ls
    | [a, w] =>
      match parseAddr lower a, parseBinary 12 w, parseCells lower ls with
      | some x, some y, some r => some ((x, BitVec.ofNat 12 y) :: r)
      | _, _, _ => none
    | _ => none

/-- The description a text holds, if it matches R131 exactly. -/
def parseDescription (lower : Bool) (t : Text) : Option Description :=
  if (splitAtChar '\n' t).all readableLine then
    match parseHeader (splitAtChar '\n' t) with
    | some (p, w, ls) =>
      match parseCells lower ls with
      | some cs => some { pc := p, acc := w, cells := cs }
      | none => none
    | none => none
  else none

/-- The assignments applied in file order to a memory of zeros, later ones overwriting earlier ones (R132, R133). -/
def applyCells (m : Memory) : List (Addr × Word) → Memory
  | [] => m
  | (a, v) :: cs => applyCells (m.write a v) cs

/-- The state a successful Load leaves (R132). -/
def State.ofDescription (d : Description) : State :=
  { pc := d.pc, acc := d.acc, mem := applyCells [] d.cells, trace := [], loaded := true }

/-- The last word a list of assignments gives an address, or `w` if it gives none. -/
def lastAssigned (a : Addr) (w : Word) : List (Addr × Word) → Word
  | [] => w
  | (b, v) :: cs => lastAssigned a (if b = a then v else w) cs

/-- MEM_INIT of a description: the word of the last line that names the address, else 0 (70 R173). -/
def Description.memInit (d : Description) (a : Addr) : Word := lastAssigned a 0 d.cells

/-- The state a failed Load leaves: not loaded, everything else free (R134, 93 U2, log 4). -/
def State.afterFailedLoad (file : Option Text) (s : State) : State :=
  { pc := Config.failedLoadPc file s.pc s.acc s.mem s.trace
    acc := Config.failedLoadAcc file s.pc s.acc s.mem s.trace
    mem := Memory.ofFn (Config.failedLoadCell file s.pc s.acc s.mem s.trace)
    trace := Config.failedLoadTrace file s.pc s.acc s.mem s.trace
    loaded := false }

/-- A core on which Load was never called: not loaded, the Trace empty (R137), everything else free (70 R175, log 4). -/
def State.constructed : State :=
  { pc := Config.constructedPc, acc := Config.constructedAcc, mem := Memory.ofFn Config.constructedCell,
    trace := [], loaded := false }

/-- Load: success or failure, and the state after it. The argument is the file's text, none when it could not be read
(R131 to R134). -/
def loadFile (file : Option Text) (s : State) : Bool × State :=
  match file with
  | none => (false, s.afterFailedLoad none)
  | some t =>
    match parseDescription Config.acceptLowerHex t with
    | some d => (true, State.ofDescription d)
    | none => (false, s.afterFailedLoad (some t))

/-! ### Step's result, the trace, the read-outs and the snapshot -/

/-- The text Step returned for the step just performed (R136). -/
def stepResult (s : State) : Option Text := s.irOut.map wordText

/-- A trace record, a function of the instruction word alone (R138, 30 R59). -/
def traceRecord (ir : Word) : Text := (decode ir).mnemonic.toList ++ ' ' :: hex2 (operandOf ir)

/-- The lines of the trace file, in execution order (R142). -/
def traceLines (s : State) : List Text := s.trace.map traceRecord

/-- Lines joined by newlines (R140). -/
def joinLines : List Text → Text
  | [] => []
  | [l] => l
  | l :: ls => l ++ '\n' :: joinLines ls

/-- The final newline, where there is one (93 U9). -/
def finalNewline (present : Bool) : Text := if present then ['\n'] else []

/-- WriteTrace's text (R142); its final newline is open (log 9). -/
def traceText (s : State) : Text := joinLines (traceLines s) ++ finalNewline (Config.traceFinalNewline s.trace.length)

/-- GetProcessorState (R139). -/
def processorState (s : State) : Text × Text := (addrText s.pc, wordText s.acc)

/-- The line of one cell (R140). -/
def cellLine (s : State) (a : Addr) : Text := hex2 a ++ ' ' :: wordText (s.readMem a)

/-- The lines of all 256 cells, address ascending (R140). -/
def memoryLines (s : State) : List Text :=
  (List.range Config.memCells).map (fun i => cellLine s (BitVec.ofNat 8 i))

/-- GetMemoryState (R140). -/
def memoryState (s : State) : Text := joinLines (memoryLines s)

/-- The header line of a snapshot (R141). -/
def headerLine (s : State) : Text := addrText s.pc ++ ' ' :: wordText s.acc

/-- The lines of a snapshot: the header and the 256 cells (R141). -/
def snapshotLines (s : State) : List Text := headerLine s :: memoryLines s

/-- WriteMemorySnapshot's text (R141); its final newline is open (log 9). -/
def snapshotText (s : State) : Text := joinLines (snapshotLines s) ++ finalNewline Config.snapshotFinalNewline

/-- A file operation's result: success with the text written, or failure on a write error (R141 to R143). The core's
state is not changed by it. -/
def writeFile (ioOk : Bool) (t : Text) : Bool × Option Text := if ioOk then (true, some t) else (false, none)

/-- WriteMemorySnapshot (R141). -/
def writeMemorySnapshot (ioOk : Bool) (s : State) : Bool × Option Text := writeFile ioOk (snapshotText s)

/-- WriteTrace (R142). -/
def writeTrace (ioOk : Bool) (s : State) : Bool × Option Text := writeFile ioOk (traceText s)

/-! ### The driver and the requests at a step boundary -/

/-- The driver's halt test after a step (R144): the returned word begins 1111 and the processor state repeats. -/
def driverSawHalt (before after : State) : Bool :=
  match after.irOut with
  | some w => decide (opcodeOf w = 0xF) && decide (processorState before = processorState after)
  | none => false

/-- The driver's loop under a step cap (R144): steps until it sees a halt or has spent the cap (log 11). -/
def drive : Nat → State → Outcome State Fault Refusal
  | 0, s => .next s
  | cap + 1, s =>
    match step s with
    | .next t => if driverSawHalt s t then .next t else drive cap t
    | .fault f => .fault f
    | .refused r => .refused r

/-- The parameters of a reset event (R81): PC_INIT, ACC_INIT and the total MEM_INIT. -/
structure ResetParams where
  pcInit : Addr
  accInit : Word
  memInit : Addr → Word

/-- What the host asks for at a step boundary: a reset, a step, both or neither (R81, R146). -/
structure HostRequest where
  reset : Option ResetParams
  step : Bool

/-- One step boundary: a reset has priority over a step (60 R153); with no request the core holds its state
(60 R162). -/
def serve (q : HostRequest) (s : State) : Outcome State Fault Refusal :=
  match q.reset with
  | some p => .next (State.hostReset p.pcInit p.accInit p.memInit)
  | none => if q.step then step s else .next s

end Sys2Proof.Machine
end

