-- ==== Sys2Proof/Machine/Reference.lean ====
section
/-!
DEFINITION. The pseudocode of the whole step (40_step_cycle.md R79) on plain numbers: PC, ACC and the cells are
natural numbers and every narrowing is written out. It shares no operation with `step`; it is there for the statement
that `step` refines it.
-/

namespace Sys2Proof.Machine

/-- PC, ACC and MEM as numbers, memory a total function (R10, R11). Not the machine's State. -/
structure RefState where
  pc : Nat
  acc : Nat
  mem : Nat → Nat

/-- `trunc12` on numbers: the remainder modulo 4096, never negative (R8). -/
def refTrunc12 (n : Int) : Nat := (n % 4096).toNat

/-- `trunc8` on numbers (R8). -/
def refTrunc8 (n : Int) : Nat := (n % 256).toNat

/-- One cell replaced. -/
def refWrite (m : Nat → Nat) (k v : Nat) : Nat → Nat := fun n => if n = k then v else m n

/-- Phase 4 of R79, by opcode number, from the state with PC already advanced. -/
def refExecute (op a : Nat) (r : RefState) : RefState :=
  match op with
  | 2 => { r with acc := refTrunc12 ((r.acc : Int) - r.mem a) }
  | 3 => { r with acc := refTrunc12 ((r.acc : Int) + r.mem a) }
  | 4 => { r with acc := r.mem a }
  | 5 => { r with mem := refWrite r.mem a r.acc }
  | 6 => { r with acc := r.mem (r.mem a % 256) }
  | 7 => { r with mem := refWrite r.mem (r.mem a % 256) r.acc }
  | 8 => if r.acc = 0 then { r with pc := a } else r
  | 9 => if 2048 ≤ r.acc then { r with pc := a } else r
  | 10 => { r with pc := a }
  | 15 => { r with pc := refTrunc8 ((r.pc : Int) - 1) }
  | _ => r

/-- The step of R79: the state after it and the instruction word it returns. -/
def refStep (r : RefState) : RefState × Nat :=
  let ir := r.mem r.pc
  let r2 := refExecute (ir / 256) (ir % 256) { r with pc := refTrunc8 ((r.pc : Int) + 1) }
  ({ r2 with acc := refTrunc12 r2.acc }, ir)

/-- A state read as numbers. -/
def State.asRef (s : State) : RefState :=
  { pc := s.pc.toNat, acc := s.acc.toNat, mem := fun n => (s.mem.read (BitVec.ofNat 8 n)).toNat }

/-- Two readings agree when PC, ACC and the 256 cells do. -/
def RefState.agrees (r q : RefState) : Prop :=
  r.pc = q.pc ∧ r.acc = q.acc ∧ ∀ n, n < 256 → r.mem n = q.mem n

end Sys2Proof.Machine
end

