-- ==== Sys2Proof/Machine/Run.lean ====
section
/-!
DEFINITION. Runs: the halted condition, many steps in a row, and the end of a run (43_control_transfer.md R115,
70_reset_and_hazards.md R183).
-/

namespace Sys2Proof.Machine

open Host

/-- The program counter points at a HALT word (R115). Judged on the current memory. -/
abbrev halted (s : State) : Prop := opcodeOf (s.readMem s.pc) = 0xF

/-- `n` steps in a row, stopping at the first fault or refusal (70 R183). -/
def runSteps : Nat → State → Outcome State Fault Refusal
  | 0, s => .next s
  | n + 1, s =>
    match step s with
    | .next t => runSteps n t
    | .fault f => .fault f
    | .refused r => .refused r

/-- The run from `s` ends after `n` steps in `t`: `t` is the first state, at a step boundary, that is halted (R115,
92_eei_decisions.md D7, log 17). The HALT is not executed yet, so its step is not counted. -/
def RunEnds (n : Nat) (s t : State) : Prop :=
  runSteps n s = .next t ∧ halted t ∧ ∀ k u, k < n → runSteps k s = .next u → ¬halted u

/-- A run that reaches no halted state does not end (R115). -/
def RunNeverEnds (s : State) : Prop := ∀ n t, runSteps n s = .next t → ¬halted t

/-- The end of the run from `s`, with the number of steps before it, looked for within `n` steps. -/
def endWithin : Nat → State → Option (Nat × State)
  | 0, s => if halted s then some (0, s) else none
  | n + 1, s =>
    if halted s then some (0, s)
    else
      match step s with
      | .next t => (endWithin n t).map fun e => (e.1 + 1, e.2)
      | .fault _ => none
      | .refused _ => none

end Sys2Proof.Machine
end

