-- ==== Sys2Proof/Safety.lean ====
section
/-!
DEFINITION. The terms claims are stated in, beside those of Machine/Run.lean: the canonical form of a state and the
states a run can reach.
-/

namespace Sys2Proof.Machine

open Host

/-- The state's memory is in canonical form (10 R11: exactly 256 cells of 12 bits). -/
def State.canonical (s : State) : Prop := s.mem.wf = true

/-- The state `n` steps after the last successful Load, the host having done nothing but Load and Step
(70 R176, R183; 45 R146). -/
inductive Reachable : Nat → State → Prop where
  /-- right after a reset event with any parameters (70 R170) -/
  | reset (p : Addr) (w : Word) (m : Addr → Word) : Reachable 0 (State.hostReset p w m)
  /-- right after the Load of a description (45 R132) -/
  | load (d : Description) : Reachable 0 (State.ofDescription d)
  /-- one step later -/
  | step {n : Nat} {s t : State} : Reachable n s → Machine.step s = .next t → Reachable (n + 1) t

end Sys2Proof.Machine
end

