-- ==== Sys2Proof/Certificates/Slice0/Obligations.lean ====
section
/-!
DEFINITION. The statements for the provers, in the order of OBLIGATIONS.json. Results are written as record updates
and exact numbers, not through the model's own update operations, so that each can be read beside its rule.
-/

open Host
open Sys2Proof
open Sys2Proof.Machine

/-! ### Encoding -/

/-- R54, R50: the sixteen rows of the opcode map, for every operand; the word is opcode times 256 plus operand. -/
def Obligations.TableRowsDecodeToTheirInstructions : Prop :=
  ∀ a : Addr,
    (decode (0x0#4 ++ a) = .op0 a ∧ decode (0x1#4 ++ a) = .op1 a ∧ decode (0x2#4 ++ a) = .sub a ∧
      decode (0x3#4 ++ a) = .add a ∧ decode (0x4#4 ++ a) = .load a ∧ decode (0x5#4 ++ a) = .store a ∧
      decode (0x6#4 ++ a) = .loadi a ∧ decode (0x7#4 ++ a) = .storei a) ∧
    (decode (0x8#4 ++ a) = .jz a ∧ decode (0x9#4 ++ a) = .jn a ∧ decode (0xA#4 ++ a) = .jmp a ∧
      decode (0xB#4 ++ a) = .opb a ∧ decode (0xC#4 ++ a) = .opc a ∧ decode (0xD#4 ++ a) = .opd a ∧
      decode (0xE#4 ++ a) = .ope a ∧ decode (0xF#4 ++ a) = .halt a) ∧
    (∀ op : OpNibble, (op ++ a : Word).toNat = op.toNat * 256 + a.toNat ∧
      opcodeOf (op ++ a) = op ∧ operandOf (op ++ a) = a) ∧
    ([(decode (0x0#4 ++ a)).mnemonic, (decode (0x1#4 ++ a)).mnemonic, (decode (0x2#4 ++ a)).mnemonic,
      (decode (0x3#4 ++ a)).mnemonic, (decode (0x4#4 ++ a)).mnemonic, (decode (0x5#4 ++ a)).mnemonic,
      (decode (0x6#4 ++ a)).mnemonic, (decode (0x7#4 ++ a)).mnemonic] =
        ["OP0", "OP1", "SUB", "ADD", "LOAD", "STORE", "LOADI", "STOREI"]) ∧
    ([(decode (0x8#4 ++ a)).mnemonic, (decode (0x9#4 ++ a)).mnemonic, (decode (0xA#4 ++ a)).mnemonic,
      (decode (0xB#4 ++ a)).mnemonic, (decode (0xC#4 ++ a)).mnemonic, (decode (0xD#4 ++ a)).mnemonic,
      (decode (0xE#4 ++ a)).mnemonic, (decode (0xF#4 ++ a)).mnemonic] =
        ["JZ", "JN", "JMP", "OPB", "OPC", "OPD", "OPE", "HALT"])

/-- Words written out bit by bit, as printed in 95_test_vectors.md section 3 (610, 80A, 905, FAB, 000) and in the worked
examples of 41 to 44 section 1 and the vectors of 95 section 4 (221, 311, 410, 512, 731, A01, E0F). -/
def Obligations.SpecWordsDecodeAsPrinted : Prop :=
  decode 0b001000100001#12 = .sub 0x21#8 ∧ decode 0b001100010001#12 = .add 0x11#8 ∧
  decode 0b010000010000#12 = .load 0x10#8 ∧ decode 0b010100010010#12 = .store 0x12#8 ∧
  decode 0b011000010000#12 = .loadi 0x10#8 ∧ decode 0b011100110001#12 = .storei 0x31#8 ∧
  decode 0b100000001010#12 = .jz 0x0A#8 ∧ decode 0b100100000101#12 = .jn 0x05#8 ∧
  decode 0b101000000001#12 = .jmp 0x01#8 ∧ decode 0b111110101011#12 = .halt 0xAB#8 ∧
  decode 0b000000000000#12 = .op0 0x00#8 ∧ decode 0b111000001111#12 = .ope 0x0F#8

/-- R55: which instruction a word is depends on bits 11..8 alone; every one of the 4096 words is decoded, to the row
whose match is its opcode times 256 under the mask 0xF00. -/
def Obligations.DecodingDependsOnOpcodeBitsOnly : Prop :=
  (∀ v w : Word, opcodeOf v = opcodeOf w →
    (decode v).opcode = (decode w).opcode ∧ (decode v).mnemonic = (decode w).mnemonic) ∧
  (∀ w : Word, (w &&& 0xF00#12).toNat = (decode w).opcode.toNat * 256) ∧
  (∀ n : Nat, n < 4096 → ∃ i, decodeTableWord 12 n = some i)

/-- Decoding an encoded instruction gives it back, with every operand, and encoding a decoded word gives the word
back: no bit of an encoding is dropped. -/
def Obligations.DecodeAndEncodeAreInverse : Prop :=
  (∀ i : Instr, i.wellFormed = true → decode (encode i) = i) ∧ (∀ w : Word, encode (decode w) = w)

/-! ### The step -/

/-- R71 to R73: a step fetches the word at PC, advances PC by one, decodes the word, executes the instruction it
is on the state with PC advanced, and records the fetched word. (Phase 5, the mask, is the identity on 12 bits.) -/
def Obligations.StepRunsDecodedInstruction : Prop :=
  ∀ (s : State) (i : Instr), s.loaded = true → decode (s.mem.read s.pc) = i → i.wellFormed = true →
    step s =
      match exec i { s with pc := trunc8 (s.pc.toNat + 1) } with
      | .next t => .next { t with trace := t.trace ++ [s.mem.read s.pc] }
      | .fault f => .fault f
      | .refused r => .refused r

/-- R78: on every loaded core a step exists, is unique and leaves a loaded core within the ranges of R11, and its effect on PC, ACC and MEM is
a function of PC, ACC and MEM alone. -/
def Obligations.StepIsTotalAndDeterministic : Prop :=
  (∀ s : State, s.loaded = true → ∃ t, step s = .next t ∧ t.loaded = true ∧ (∀ u, step s = .next u → u = t) ∧
    t.pc.toNat ≤ 255 ∧ t.acc.toNat ≤ 4095 ∧ ∀ a, (t.readMem a).toNat ≤ 4095) ∧
  (∀ s u t : State, s.loaded = true → u.loaded = true → s.pc = u.pc → s.acc = u.acc → s.mem = u.mem →
    step s = .next t → ∃ v, step u = .next v ∧ v.pc = t.pc ∧ v.acc = t.acc ∧ v.mem = t.mem ∧ v.irOut = t.irOut)

/-! ### The instructions -/

/-- R90. -/
def Obligations.SubSubtractsOperandCell : Prop :=
  ∀ (s : State) (a : Addr),
    exec (.sub a) s = .next { s with acc := trunc12 ((s.acc.toNat : Int) - (s.mem.read a).toNat) } ∧
    (s.loaded = true → s.mem.read s.pc = 0x2#4 ++ a →
      accesses s = [.read s.pc, .read a] ∧
      step s = .next { s with
        pc := trunc8 (s.pc.toNat + 1)
        acc := trunc12 ((s.acc.toNat : Int) - (s.mem.read a).toNat)
        trace := s.trace ++ [0x2#4 ++ a] })

/-- R91. -/
def Obligations.AddAddsOperandCell : Prop :=
  ∀ (s : State) (a : Addr),
    exec (.add a) s = .next { s with acc := trunc12 ((s.acc.toNat : Int) + (s.mem.read a).toNat) } ∧
    (s.loaded = true → s.mem.read s.pc = 0x3#4 ++ a →
      accesses s = [.read s.pc, .read a] ∧
      step s = .next { s with
        pc := trunc8 (s.pc.toNat + 1)
        acc := trunc12 ((s.acc.toNat : Int) + (s.mem.read a).toNat)
        trace := s.trace ++ [0x3#4 ++ a] })

/-- R100. -/
def Obligations.LoadCopiesOperandCell : Prop :=
  ∀ (s : State) (a : Addr),
    exec (.load a) s = .next { s with acc := s.mem.read a } ∧
    (s.loaded = true → s.mem.read s.pc = 0x4#4 ++ a →
      accesses s = [.read s.pc, .read a] ∧
      step s = .next { s with
        pc := trunc8 (s.pc.toNat + 1)
        acc := s.mem.read a
        trace := s.trace ++ [0x4#4 ++ a] })

/-- R101. -/
def Obligations.StoreWritesOperandCell : Prop :=
  ∀ (s : State) (a : Addr),
    exec (.store a) s = .next { s with mem := s.mem.write a s.acc } ∧
    (∀ b, (s.mem.write a s.acc).read b = if b = a then s.acc else s.mem.read b) ∧
    (s.loaded = true → s.mem.read s.pc = 0x5#4 ++ a →
      accesses s = [.read s.pc, .write a s.acc] ∧
      step s = .next { s with
        pc := trunc8 (s.pc.toNat + 1)
        mem := s.mem.write a s.acc
        trace := s.trace ++ [0x5#4 ++ a] })

/-- R102: the pointer's low 8 bits name the cell loaded. -/
def Obligations.LoadiCopiesPointedCell : Prop :=
  ∀ (s : State) (a p : Addr), p = BitVec.ofNat 8 ((s.mem.read a).toNat % 256) →
    exec (.loadi a) s = .next { s with acc := s.mem.read p } ∧
    (s.loaded = true → s.mem.read s.pc = 0x6#4 ++ a →
      accesses s = [.read s.pc, .read a, .read p] ∧
      step s = .next { s with
        pc := trunc8 (s.pc.toNat + 1)
        acc := s.mem.read p
        trace := s.trace ++ [0x6#4 ++ a] })

/-- R103: the pointer's low 8 bits, read before the write, name the cell stored to. -/
def Obligations.StoreiWritesPointedCell : Prop :=
  ∀ (s : State) (a p : Addr), p = BitVec.ofNat 8 ((s.mem.read a).toNat % 256) →
    exec (.storei a) s = .next { s with mem := s.mem.write p s.acc } ∧
    (∀ b, (s.mem.write p s.acc).read b = if b = p then s.acc else s.mem.read b) ∧
    (s.loaded = true → s.mem.read s.pc = 0x7#4 ++ a →
      accesses s = [.read s.pc, .read a, .write p s.acc] ∧
      step s = .next { s with
        pc := trunc8 (s.pc.toNat + 1)
        mem := s.mem.write p s.acc
        trace := s.trace ++ [0x7#4 ++ a] })

/-- R110. -/
def Obligations.JzBranchesOnZero : Prop :=
  ∀ (s : State) (a : Addr),
    exec (.jz a) s = .next { s with pc := if s.acc.toNat = 0 then a else s.pc } ∧
    (s.loaded = true → s.mem.read s.pc = 0x8#4 ++ a →
      accesses s = [.read s.pc] ∧
      step s = .next { s with
        pc := if s.acc.toNat = 0 then a else trunc8 (s.pc.toNat + 1)
        trace := s.trace ++ [0x8#4 ++ a] })

/-- R111: the signed reading is negative exactly when bit 11 is 1, that is for ACC in 0x800..0xFFF. -/
def Obligations.JnBranchesOnNegative : Prop :=
  ∀ (s : State) (a : Addr),
    (sext12 s.acc < 0 ↔ s.acc.getLsbD 11 = true) ∧ (sext12 s.acc < 0 ↔ 0x800 ≤ s.acc.toNat) ∧
    exec (.jn a) s = .next { s with pc := if sext12 s.acc < 0 then a else s.pc } ∧
    (s.loaded = true → s.mem.read s.pc = 0x9#4 ++ a →
      accesses s = [.read s.pc] ∧
      step s = .next { s with
        pc := if sext12 s.acc < 0 then a else trunc8 (s.pc.toNat + 1)
        trace := s.trace ++ [0x9#4 ++ a] })

/-- R112. -/
def Obligations.JmpBranchesAlways : Prop :=
  ∀ (s : State) (a : Addr),
    exec (.jmp a) s = .next { s with pc := a } ∧
    (s.loaded = true → s.mem.read s.pc = 0xA#4 ++ a →
      accesses s = [.read s.pc] ∧
      step s = .next { s with pc := a, trace := s.trace ++ [0xA#4 ++ a] })

/-- R113: HALT steps the advanced PC back, so PC ends as it began, whatever the operand; a further step does the same
again and adds one more record. -/
def Obligations.HaltRepointsAtItself : Prop :=
  ∀ (s : State) (a : Addr),
    exec (.halt a) s = .next { s with pc := trunc8 ((s.pc.toNat : Int) - 1) } ∧
    (s.loaded = true → s.mem.read s.pc = 0xF#4 ++ a →
      accesses s = [.read s.pc] ∧
      step s = .next { s with trace := s.trace ++ [0xF#4 ++ a] } ∧
      step { s with trace := s.trace ++ [0xF#4 ++ a] } =
        .next { s with trace := s.trace ++ [0xF#4 ++ a, 0xF#4 ++ a] })

/-- R120 to R125: the six undefined opcodes change nothing in phase 4; the step advances PC, records the word and
makes no access but the fetch. -/
def Obligations.UndefinedOpcodesOnlyAdvance : Prop :=
  (∀ (s : State) (a : Addr),
    exec (.op0 a) s = .next s ∧ exec (.op1 a) s = .next s ∧ exec (.opb a) s = .next s ∧
    exec (.opc a) s = .next s ∧ exec (.opd a) s = .next s ∧ exec (.ope a) s = .next s) ∧
  (∀ (s : State) (a : Addr) (op : OpNibble), op ∈ [0x0#4, 0x1#4, 0xB#4, 0xC#4, 0xD#4, 0xE#4] →
    s.loaded = true → s.mem.read s.pc = op ++ a →
      accesses s = [.read s.pc] ∧
      step s = .next { s with pc := trunc8 (s.pc.toNat + 1), trace := s.trace ++ [op ++ a] })

/-! ### Frames -/

/-- SUB, ADD, LOAD and LOADI change ACC alone: PC (the step's advance apart), the Trace, the loaded mark and every
cell are as before. -/
def Obligations.AccumulatorWritersFrame : Prop :=
  ∀ (s t : State) (a : Addr) (i : Instr), i ∈ [Instr.sub a, .add a, .load a, .loadi a] → exec i s = .next t →
    t.pc = s.pc ∧ t.trace = s.trace ∧ t.loaded = s.loaded ∧ ∀ b, t.readMem b = s.readMem b

/-- STORE and STOREI change no register, not the Trace nor the loaded mark, and no cell but the one stored to, whose
address is the direct operand or the pointer's, as the meaning computes it. -/
def Obligations.StoresFrame : Prop :=
  ∀ (s t : State) (a : Addr),
    (exec (.store a) s = .next t →
      t.pc = s.pc ∧ t.acc = s.acc ∧ t.trace = s.trace ∧ t.loaded = s.loaded ∧
      t.readMem (directAddr a) = s.acc ∧ ∀ b, b ≠ directAddr a → t.readMem b = s.readMem b) ∧
    (exec (.storei a) s = .next t →
      t.pc = s.pc ∧ t.acc = s.acc ∧ t.trace = s.trace ∧ t.loaded = s.loaded ∧
      t.readMem (indirectAddr s a) = s.acc ∧ ∀ b, b ≠ indirectAddr s a → t.readMem b = s.readMem b)

/-- JZ, JN, JMP and HALT change PC alone. -/
def Obligations.TransfersFrame : Prop :=
  ∀ (s t : State) (a : Addr) (i : Instr), i ∈ [Instr.jz a, .jn a, .jmp a, .halt a] → exec i s = .next t →
    t.acc = s.acc ∧ t.trace = s.trace ∧ t.loaded = s.loaded ∧ ∀ b, t.readMem b = s.readMem b

/-- In a whole step of an undefined opcode, ACC, the loaded mark and every cell are as before. -/
def Obligations.UndefinedOpcodesFrame : Prop :=
  ∀ (s t : State) (a : Addr),
    decode s.fetch ∈ [Instr.op0 a, .op1 a, .opb a, .opc a, .opd a, .ope a] → step s = .next t →
      t.acc = s.acc ∧ t.loaded = s.loaded ∧ (∀ b, t.readMem b = s.readMem b) ∧ t.trace = s.trace ++ [s.fetch]

/-! ### Whole-machine rules -/

/-- How each instruction leaves PC: the table of 10_state.md section 3. -/
def Obligations.PcAfterEachInstruction : Prop :=
  ∀ s t : State, step s = .next t →
    t.pc =
      match decode s.fetch with
      | .jz a => if s.acc = 0 then a else trunc8 (s.pc.toNat + 1)
      | .jn a => if s.acc.getLsbD 11 then a else trunc8 (s.pc.toNat + 1)
      | .jmp a => a
      | .halt _ => s.pc
      | .sub _ | .add _ | .load _ | .store _ | .loadi _ | .storei _ => trunc8 (s.pc.toNat + 1)
      | .op0 _ | .op1 _ | .opb _ | .opc _ | .opd _ | .ope _ => trunc8 (s.pc.toNat + 1)

/-- What one step can change (40_step_cycle.md section 5, clauses i to iii). -/
def Obligations.StepFrameConditions : Prop :=
  ∀ s t : State, step s = .next t →
    (∀ b c, t.readMem b ≠ s.readMem b → t.readMem c ≠ s.readMem c → b = c) ∧
    (∀ b, t.readMem b ≠ s.readMem b → opcodeOf s.fetch = 0x5 ∨ opcodeOf s.fetch = 0x7) ∧
    (t.acc ≠ s.acc → opcodeOf s.fetch ∈ [0x2#4, 0x3#4, 0x4#4, 0x6#4]) ∧
    (t.pc = trunc8 (s.pc.toNat + 1) ∨ t.pc = operandOf s.fetch ∨ t.pc = s.pc) ∧
    (t.pc = s.pc → opcodeOf s.fetch = 0xF ∨
      (operandOf s.fetch = s.pc ∧
        ((opcodeOf s.fetch = 0x8 ∧ s.acc = 0) ∨ (opcodeOf s.fetch = 0x9 ∧ s.acc.getLsbD 11 = true) ∨
          opcodeOf s.fetch = 0xA)))

/-- The order of the accesses of a step (20_memory.md section 8): the fetch first, at most three, at most one write
and that one last; the write list is exactly what the step does to memory. -/
def Obligations.ArbiterOrdersAccesses : Prop :=
  ∀ s t : State, step s = .next t →
    (accesses s).head? = some (.read s.pc) ∧ (accesses s).length ≤ 3 ∧
    (∀ x ∈ (accesses s).dropLast, x.writeAddr = none) ∧
    (∀ a v, .write a v ∈ accesses s → v = s.acc ∧ t.readMem a = v) ∧
    (∀ b, b ∉ writtenCells s → t.readMem b = s.readMem b)

/-- A step's result depends on memory only at the cells it reads (40_step_cycle.md section 5, clause iv). -/
def Obligations.StepDependsOnlyOnReadCells : Prop :=
  ∀ s u : State, s.loaded = true → u.loaded = true → s.pc = u.pc → s.acc = u.acc →
    (∀ b ∈ readCells s, s.readMem b = u.readMem b) →
    ∃ t v, step s = .next t ∧ step u = .next v ∧ t.pc = v.pc ∧ t.acc = v.acc ∧ t.irOut = v.irOut ∧
      accesses s = accesses u ∧ (∀ b ∈ writtenCells s, t.readMem b = v.readMem b)

/-- R42: a store is seen by every later fetch of the cell, from the next step on, until the cell is written again;
the storing step itself completes with the word it fetched. -/
def Obligations.StoredWordIsSeenByLaterFetches : Prop :=
  ∀ (s t u : State) (x : Addr) (n : Nat), step s = .next t → x ∈ writtenCells s → runSteps n t = .next u →
    (∀ k v, k < n → runSteps k t = .next v → x ∉ writtenCells v) →
    t.irOut = some (s.readMem s.pc) ∧ u.readMem x = s.acc ∧ (u.pc = x → u.fetch = s.acc)

/-- R76, R77: one record is appended, made of the fetched word, which is the step's output; the record's text is the
mnemonic and the fetched operand; the Trace has no effect on PC, ACC or MEM. -/
def Obligations.TraceRecordsFetchedWord : Prop :=
  ∀ s t : State, step s = .next t →
    t.trace = s.trace ++ [s.readMem s.pc] ∧ t.irOut = some (s.readMem s.pc) ∧
    stepResult t = some (wordText (s.readMem s.pc)) ∧
    traceLines t = traceLines s ++
      [(decode (s.readMem s.pc)).mnemonic.toList ++ ' ' :: hex2 (operandOf (s.readMem s.pc))] ∧
    ∀ l : List Word, ∃ v, step { s with trace := l } = .next v ∧ v.pc = t.pc ∧ v.acc = t.acc ∧ v.mem = t.mem

/-- The texts of the trace records (45_host_interface.md section 4, 30_encoding.md section 6), the digits' case being
the spec's decision D6 (log 9); and WriteTrace (45_host_interface.md section 5): one record per line, the newline
between lines being the model's (log 9) and the final one open (93 U9), failure exactly on a write error, which is an
argument (log 14). -/
def Obligations.TraceRecordTexts : Prop :=
  traceRecord 0x610#12 = "LOADI 10".toList ∧ traceRecord 0x905#12 = "JN 05".toList ∧
  traceRecord 0xFAB#12 = "HALT AB".toList ∧ traceRecord 0xB3F#12 = "OPB 3F".toList ∧
  traceRecord 0x1A5#12 = "OP1 A5".toList ∧ traceRecord 0x731#12 = "STOREI 31".toList ∧
  (∀ w : Word, (traceRecord w).length = (decode w).mnemonic.toList.length + 3) ∧
  (∀ v w : Word, traceRecord v = traceRecord w → v = w) ∧
  (∀ s : State, writeTrace false s = (false, none) ∧ writeTrace true s = (true, some (traceText s)) ∧
    (traceText s = joinLines (s.trace.map traceRecord) ∨ traceText s = joinLines (s.trace.map traceRecord) ++ ['\n']))

/-- R83. -/
def Obligations.AddressAdderWraps : Prop :=
  (∀ x : Addr, addrInc x = trunc8 (x.toNat + 1) ∧ addrDec x = trunc8 ((x.toNat : Int) - 1) ∧ addrDec (addrInc x) = x) ∧
  addrInc 255#8 = 0#8 ∧ addrDec 0#8 = 255#8 ∧
  (∀ (s : State) (a : Addr), directAddr a = a ∧ (indirectAddr s a).toNat = (s.mem.read a).toNat % 256)

/-- R92: the exact result modulo 4096, stored in 12 bits, and nothing else records that it wrapped. -/
def Obligations.ArithmeticIsModulo4096 : Prop :=
  ∀ (s : State) (a : Addr),
    (∃ t, exec (.add a) s = .next t ∧ t = { s with acc := t.acc } ∧
      t.acc.toNat = (s.acc.toNat + (s.mem.read a).toNat) % 4096 ∧ t.acc.toNat ≤ 4095) ∧
    (∃ t, exec (.sub a) s = .next t ∧ t = { s with acc := t.acc } ∧
      (t.acc.toNat : Int) = ((s.acc.toNat : Int) - (s.mem.read a).toNat) % 4096 ∧ t.acc.toNat ≤ 4095)

/-- The same operations on the signed readings (41_arithmetic.md section 2): exact when the signed result is in
-2048..2047, wrapped otherwise; and subtraction as addition of the complement. -/
def Obligations.ArithmeticIsSignAgnostic : Prop :=
  ∀ x y : Word,
    (-2048 ≤ sext12 x ∧ sext12 x ≤ 2047) ∧
    (∃ k : Int, sext12 (aluAdd x y) = sext12 x + sext12 y + 4096 * k) ∧
    (∃ k : Int, sext12 (aluSub x y) = sext12 x - sext12 y + 4096 * k) ∧
    (-2048 ≤ sext12 x + sext12 y → sext12 x + sext12 y ≤ 2047 → sext12 (aluAdd x y) = sext12 x + sext12 y) ∧
    (-2048 ≤ sext12 x - sext12 y → sext12 x - sext12 y ≤ 2047 → sext12 (aluSub x y) = sext12 x - sext12 y) ∧
    aluSub x y = trunc12 ((x.toNat : Int) + (4095 - (y.toNat : Int)) + 1)

/-- Laws of arithmetic modulo 4096 (41_arithmetic.md section 2): ADD x then SUB x restores the state, the values of
ADD commute and associate, 4096 repetitions of ADD x restore ACC. -/
def Obligations.AddThenSubRestores : Prop :=
  (∀ (s t : State) (a : Addr), exec (.add a) s = .next t → exec (.sub a) t = .next s) ∧
  (∀ x y z : Word, aluAdd x y = aluAdd y x ∧ aluAdd (aluAdd x y) z = aluAdd x (aluAdd y z)) ∧
  (∀ x y : Word, (fun v => aluAdd v y)^[4096] x = x) ∧
  (∀ x y : Word, aluSub x y = aluAdd x (trunc12 (4096 - (y.toNat : Int))))

/-- R85: the two branch conditions as functions of the current ACC. -/
def Obligations.ConditionLogic : Prop :=
  (∀ v : Word,
    (isZero v = true ↔ ∀ i, i < 12 → v.getLsbD i = false) ∧
    (isNegative v = true ↔ v.getLsbD 11 = true) ∧ (isNegative v = true ↔ sext12 v < 0) ∧
    (isNegative v = true ↔ 0x800 ≤ v.toNat ∧ v.toNat ≤ 0xFFF) ∧ ¬(isZero v = true ∧ isNegative v = true)) ∧
  (∀ (s : State) (a : Addr),
    exec (.jz a) s = .next { s with pc := if isZero s.acc then a else s.pc } ∧
    exec (.jn a) s = .next { s with pc := if isNegative s.acc then a else s.pc })

/-! ### Invariants and runs -/

/-- Every step keeps the memory in canonical form: exactly the addresses 0..255, strictly rising, no zero listed
(10_state.md section 1; the form is the model's, log 1). -/
def Obligations.StepKeepsMemoryCanonical : Prop :=
  ∀ s t : State, s.canonical → step s = .next t → t.canonical

/-- The state after reset is canonical and loaded; its PC and ACC of 0 and its unassigned memory are the model's
choice (log 2), the zero cells and the empty Trace the spec's. It is the Load of an all-zero header with no memory
line, whatever the state before. -/
def Obligations.ResetStateIsCanonical : Prop :=
  State.reset.canonical ∧ State.reset.loaded = true ∧ State.reset.pc = 0 ∧ State.reset.acc = 0 ∧
  State.reset.trace = [] ∧ (∀ a, State.reset.readMem a = 0) ∧
  (∀ s : State, loadFile (some "00000000 000000000000".toList) s = (true, State.reset))

/-- A state reached from any reset event or Load by steps alone is loaded and canonical, and its Trace is as long as
the number of steps since. -/
def Obligations.ReachableStatesAreCanonical : Prop :=
  ∀ (n : Nat) (s : State), Reachable n s → s.canonical ∧ s.loaded = true ∧ s.trace.length = n

/-- From a loaded core any number of steps completes, each adding one record (no fault, no refusal). -/
def Obligations.RunsOfLoadedCoreNeverStop : Prop :=
  ∀ (n : Nat) (s : State), s.loaded = true →
    ∃ t, runSteps n s = .next t ∧ t.loaded = true ∧ t.trace.length = s.trace.length + n ∧
      s.trace <+: t.trace

/-- From a halted state every number of steps leaves PC, ACC and MEM as they are and the state halted, one record of
the HALT word per step (43_control_transfer.md section 2). -/
def Obligations.HaltedRunIsFixed : Prop :=
  ∀ (n : Nat) (s : State), s.loaded = true → halted s →
    ∃ t, runSteps n s = .next t ∧ t = { s with trace := s.trace ++ List.replicate n s.fetch } ∧ halted t

/-- The end of a run (43_control_transfer.md section 2): it is the first halted state at a step boundary, so there is
at most one; a search finds it exactly when it lies within the search's steps; the HALT's own step is not counted, so
the Trace has one record per step before it; the driver, which executes that HALT once, stops one record later with the
same PC, ACC and MEM; and further steps change nothing but the Trace. The definition is the spec's decision D7
(log 17), the cap of the driver log 11. -/
def Obligations.EndOfRunIsFirstHaltedState : Prop :=
  ∀ s : State, s.loaded = true →
    (∀ b n t, endWithin b s = some (n, t) ↔ n ≤ b ∧ RunEnds n s t) ∧
    (∀ n m t u, RunEnds n s t → RunEnds m s u → n = m ∧ t = u) ∧
    (∀ n t, RunEnds n s t →
      t.trace.length = s.trace.length + n ∧
      (∀ cap, n < cap → drive cap s = .next { t with trace := t.trace ++ [t.fetch] }) ∧
      (∀ m, runSteps (n + m) s = .next { t with trace := t.trace ++ List.replicate m t.fetch }))

/-- A run that does not end (43_control_transfer.md section 2, 70_reset_and_hazards.md section 4): a JMP to itself, and
a JZ or JN taken to itself, change no state but the Trace and are no end; and on a run without end the driver stops
only when its cap is spent (log 11, log 17). -/
def Obligations.SelfLoopsAreNoEnd : Prop :=
  (∀ s : State, s.loaded = true →
    (decode s.fetch = .jmp s.pc ∨ (decode s.fetch = .jz s.pc ∧ s.acc = 0) ∨
      (decode s.fetch = .jn s.pc ∧ s.acc.getLsbD 11 = true)) →
    RunNeverEnds s ∧ ∀ n, runSteps n s = .next { s with trace := s.trace ++ List.replicate n s.fetch }) ∧
  (∀ (s : State) (cap : Nat), s.loaded = true → RunNeverEnds s → drive cap s = runSteps cap s)

/-- Every step of a loaded core is the step of the pseudocode of 40_step_cycle.md section 1 on plain numbers, its
output too. -/
def Obligations.StepRefinesPseudocode : Prop :=
  ∀ s : State, s.loaded = true →
    ∃ t, step s = .next t ∧ t.asRef.agrees (refStep s.asRef).1 ∧
      ∃ w, t.irOut = some w ∧ w.toNat = (refStep s.asRef).2

/-- Every step of a loaded core is the step of the datapath driven by the control table of 40_step_cycle.md section 3.
The sub-blocks and the control signals are the spec's own decisions D2 and D18 (log 7), not the document's. -/
def Obligations.DatapathRefinesStep : Prop :=
  ∀ s : State, s.loaded = true → step s = .next (datapathStep s)

/-! ### The host interface -/

/-- The reset event sets PC, ACC, every cell and the Trace, in canonical form; the first fetch is at PC_INIT. -/
def Obligations.ResetEventSetsWholeState : Prop :=
  ∀ (p : Addr) (w : Word) (m : Addr → Word),
    (State.hostReset p w m).pc = p ∧ (State.hostReset p w m).acc = w ∧ (State.hostReset p w m).trace = [] ∧
    (State.hostReset p w m).canonical ∧ (∀ a, (State.hostReset p w m).readMem a = m a) ∧
    (State.hostReset p w m).fetch = m p ∧
    ∃ t, step (State.hostReset p w m) = .next t ∧ t.trace = [m p]

/-- R132, R133: a successful Load sets PC and ACC to the header's values, clears the Trace, and gives every cell the
word of the last line that names it, or 0; the state before has no influence; and it is the reset event. -/
def Obligations.LoadAppliesDescription : Prop :=
  ∀ (text : Text) (s : State) (d : Description), parseDescription Config.acceptLowerHex text = some d →
    ∃ t, loadFile (some text) s = (true, t) ∧ t.pc = d.pc ∧ t.acc = d.acc ∧ t.trace = [] ∧ t.loaded = true ∧
      (∀ (a : Addr) (v : Word) (before after : List (Addr × Word)),
        d.cells = before ++ (a, v) :: after → (∀ e ∈ after, e.1 ≠ a) → t.readMem a = v) ∧
      (∀ a : Addr, (∀ e ∈ d.cells, e.1 ≠ a) → t.readMem a = 0) ∧
      (∀ u : State, loadFile (some text) u = (true, t)) ∧
      t = State.hostReset d.pc d.acc d.memInit

/-- A description whose first line that is neither blank nor a comment is a single token fails to load, whether the
token ends the text, the line or stands before a comment (EX8 of 95_test_vectors.md, 45_host_interface.md section 2).
For a token with a tab or another character that a looser loader may take as white space the failure rests on the
model's strict reading (log 8, 92_eei_decisions.md D12); for a token of other characters it is EX8 itself. -/
def Obligations.OneTokenHeaderFails : Prop :=
  ∀ (skipped : List Text) (token tail : Text) (s : State),
    (∀ l ∈ skipped, (l = [] ∨ l.head? = some '#') ∧ ∀ c ∈ l, c ≠ '\n') →
    token ≠ [] → (∀ c ∈ token, c ≠ ' ' ∧ c ≠ '\n' ∧ c ≠ '#') →
    (tail = [] ∨ tail.head? = some '\n' ∨ tail.head? = some '#') →
      (loadFile (some ((skipped.flatMap fun l => l ++ ['\n']) ++ (token ++ tail))) s).1 = false

/-- What follows # on a line is discarded: two descriptions that differ only in a comment load alike, whatever the
comments hold of ASCII but a line end (45_host_interface.md section 2; beyond ASCII and the carriage return, log 8). -/
def Obligations.CommentsAreDiscarded : Prop :=
  ∀ (before line comment after : Text) (s : State),
    (∀ c ∈ comment, c.toNat ≤ 127 ∧ c ≠ '\n' ∧ c ≠ '\r') → (∀ c ∈ line, c ≠ '\n' ∧ c ≠ '#') →
    (before = [] ∨ before.getLast? = some '\n') → (after = [] ∨ after.head? = some '\n') →
    (parseDescription Config.acceptLowerHex (before ++ (line ++ '#' :: comment) ++ after) =
        parseDescription Config.acceptLowerHex (before ++ line ++ after)) ∧
    ((loadFile (some (before ++ line ++ after)) s).1 = true →
      loadFile (some (before ++ (line ++ '#' :: comment) ++ after)) s = loadFile (some (before ++ line ++ after)) s)

/-- A core that was never loaded, or whose last Load failed, has no step: the model refuses
(70_reset_and_hazards.md section 1, 92_eei_decisions.md D5, log 3). -/
def Obligations.FailedLoadLeavesNoStep : Prop :=
  step State.constructed = .refused .notLoaded ∧ State.constructed.trace = [] ∧
  (∀ s : State, s.loaded = false → step s = .refused .notLoaded) ∧
  (∀ (file : Option Text) (s t : State), loadFile file s = (false, t) → step t = .refused .notLoaded) ∧
  (∀ (file : Option Text) (s t : State), loadFile file s = (true, t) → t.loaded = true ∧ t.canonical)

/-- The snapshot is the header line and the 256 cell lines in ascending order, it fails only on a write error, and
loading it gives back PC, ACC and MEM (after any number of steps), whatever state the loading core was in
(45_host_interface.md section 5). It rests on the model's canonical form (log 1), on what Load accepts (log 8), on
upper-case digits and newline characters (log 9) and on file failures as arguments (log 14). -/
def Obligations.SnapshotRoundTrip : Prop :=
  ∀ s u : State, s.canonical →
    (snapshotLines s).length = 257 ∧ (snapshotLines s)[0]? = some (addrText s.pc ++ ' ' :: wordText s.acc) ∧
    (∀ a : Addr, (snapshotLines s)[a.toNat + 1]? = some (hex2 a ++ ' ' :: wordText (s.readMem a))) ∧
    writeMemorySnapshot true s = (true, some (snapshotText s)) ∧ (writeMemorySnapshot false s).1 = false ∧
    loadFile (some (snapshotText s)) u = (true, { s with trace := [], loaded := true })

/-- R139, R140: the read-outs, binary texts most significant bit first. -/
def Obligations.ReadOutTexts : Prop :=
  (∀ s : State, processorState s = (addrText s.pc, wordText s.acc) ∧
    memoryState s = joinLines ((List.range 256).map fun i =>
      hex2 (BitVec.ofNat 8 i) ++ ' ' :: wordText (s.mem.read (BitVec.ofNat 8 i)))) ∧
  (∀ a : Addr, (addrText a).length = 8 ∧
    ∀ i, i < 8 → (addrText a)[i]? = some (if a.getLsbD (7 - i) then '1' else '0')) ∧
  (∀ w : Word, (wordText w).length = 12 ∧
    ∀ i, i < 12 → (wordText w)[i]? = some (if w.getLsbD (11 - i) then '1' else '0'))

/-- The driver on a halted core executes the HALT once and stops, and on a core that is not halted it does not stop
after the step (45_host_interface.md section 6). -/
def Obligations.DriverStopsAfterFirstHalt : Prop :=
  ∀ (s : State) (cap : Nat), s.loaded = true →
    (halted s → drive (cap + 1) s = .next { s with trace := s.trace ++ [s.fetch] }) ∧
    (¬halted s → ∃ t, step s = .next t ∧ drive (cap + 1) s = drive cap t)

/-- At a step boundary a reset has priority over a step and nothing is recorded; a step alone is one step; with no
request the core holds its state (60_exceptions.md sections 3 and 6). -/
def Obligations.ResetHasPriorityOverStep : Prop :=
  ∀ (s : State) (p : ResetParams) (b : Bool),
    (∃ t, serve { reset := some p, step := b } s = .next t ∧ t.pc = p.pcInit ∧ t.acc = p.accInit ∧ t.trace = [] ∧
      ∀ a, t.readMem a = p.memInit a) ∧
    serve { reset := none, step := true } s = step s ∧ serve { reset := none, step := false } s = .next s
end

