-- ==== Sys2Proof/Laws/State.lean ====
section
/-!
SUPPORT. One lemma per field per update of State, true by unfolding, so that no proof unfolds a record update.
-/

namespace Sys2Proof.Machine

@[simp] theorem State.setPc_pc (s : State) (v : Addr) : (s.setPc v).pc = v := rfl
@[simp] theorem State.setPc_acc (s : State) (v : Addr) : (s.setPc v).acc = s.acc := rfl
@[simp] theorem State.setPc_mem (s : State) (v : Addr) : (s.setPc v).mem = s.mem := rfl
@[simp] theorem State.setPc_trace (s : State) (v : Addr) : (s.setPc v).trace = s.trace := rfl
@[simp] theorem State.setPc_loaded (s : State) (v : Addr) : (s.setPc v).loaded = s.loaded := rfl
@[simp] theorem State.setPc_readMem (s : State) (v : Addr) (a : Addr) : (s.setPc v).readMem a = s.readMem a := rfl

@[simp] theorem State.setAcc_pc (s : State) (v : Word) : (s.setAcc v).pc = s.pc := rfl
@[simp] theorem State.setAcc_acc (s : State) (v : Word) : (s.setAcc v).acc = v := rfl
@[simp] theorem State.setAcc_mem (s : State) (v : Word) : (s.setAcc v).mem = s.mem := rfl
@[simp] theorem State.setAcc_trace (s : State) (v : Word) : (s.setAcc v).trace = s.trace := rfl
@[simp] theorem State.setAcc_loaded (s : State) (v : Word) : (s.setAcc v).loaded = s.loaded := rfl
@[simp] theorem State.setAcc_readMem (s : State) (v : Word) (a : Addr) : (s.setAcc v).readMem a = s.readMem a := rfl

@[simp] theorem State.writeMem_pc (s : State) (a : Addr) (v : Word) : (s.writeMem a v).pc = s.pc := rfl
@[simp] theorem State.writeMem_acc (s : State) (a : Addr) (v : Word) : (s.writeMem a v).acc = s.acc := rfl
@[simp] theorem State.writeMem_mem (s : State) (a : Addr) (v : Word) : (s.writeMem a v).mem = s.mem.write a v := rfl
@[simp] theorem State.writeMem_trace (s : State) (a : Addr) (v : Word) : (s.writeMem a v).trace = s.trace := rfl
@[simp] theorem State.writeMem_loaded (s : State) (a : Addr) (v : Word) : (s.writeMem a v).loaded = s.loaded := rfl

@[simp] theorem State.record_pc (s : State) (w : Word) : (s.record w).pc = s.pc := rfl
@[simp] theorem State.record_acc (s : State) (w : Word) : (s.record w).acc = s.acc := rfl
@[simp] theorem State.record_mem (s : State) (w : Word) : (s.record w).mem = s.mem := rfl
@[simp] theorem State.record_trace (s : State) (w : Word) : (s.record w).trace = s.trace ++ [w] := rfl
@[simp] theorem State.record_loaded (s : State) (w : Word) : (s.record w).loaded = s.loaded := rfl

@[simp] theorem State.advancePc_pc (s : State) : s.advancePc.pc = addrInc s.pc := rfl
@[simp] theorem State.advancePc_acc (s : State) : s.advancePc.acc = s.acc := rfl
@[simp] theorem State.advancePc_mem (s : State) : s.advancePc.mem = s.mem := rfl
@[simp] theorem State.advancePc_trace (s : State) : s.advancePc.trace = s.trace := rfl
@[simp] theorem State.advancePc_loaded (s : State) : s.advancePc.loaded = s.loaded := rfl
@[simp] theorem State.advancePc_readMem (s : State) (a : Addr) : s.advancePc.readMem a = s.readMem a := rfl

@[simp] theorem State.hostReset_pc (p : Addr) (w : Word) (m : Addr → Word) : (State.hostReset p w m).pc = p := rfl
@[simp] theorem State.hostReset_acc (p : Addr) (w : Word) (m : Addr → Word) : (State.hostReset p w m).acc = w := rfl
@[simp] theorem State.hostReset_mem (p : Addr) (w : Word) (m : Addr → Word) :
    (State.hostReset p w m).mem = Memory.ofFn m := rfl
@[simp] theorem State.hostReset_trace (p : Addr) (w : Word) (m : Addr → Word) :
    (State.hostReset p w m).trace = [] := rfl
@[simp] theorem State.hostReset_loaded (p : Addr) (w : Word) (m : Addr → Word) :
    (State.hostReset p w m).loaded = true := rfl

end Sys2Proof.Machine
end

