-- ==== Sys2Proof/Laws/Memory.lean ====
section
/-!
SUPPORT. The laws of memory: a read after a write, that every operation keeps the canonical form, and that two
canonical memories that read alike are the same data.
-/

namespace Sys2Proof.Machine

theorem Memory.read_nil (a : Addr) : Memory.read [] a = 0 := rfl

theorem Memory.read_cons (k : Nat) (x : Word) (m : Memory) (a : Addr) :
    Memory.read ((k, x) :: m) a = if k = a.toNat then x else m.read a := rfl

/-- Erasing an address leaves 0 there and every other cell as it was. -/
theorem Memory.read_erase (m : Memory) (a b : Addr) :
    (m.erase a.toNat).read b = if b = a then 0 else m.read b := by
  induction m with
  | nil => simp [Memory.erase, Memory.read]
  | cons e m ih =>
    obtain ⟨k, x⟩ := e
    by_cases hk : k = a.toNat
    · subst hk
      rw [Memory.erase, if_pos rfl, ih]
      by_cases hb : b = a
      · simp [hb]
      · have : a.toNat ≠ b.toNat := fun h => hb (BitVec.eq_of_toNat_eq h.symm)
        simp [Memory.read_cons, hb, this]
    · by_cases hb : b = a
      · subst hb; simp [Memory.erase, Memory.read_cons, ih, hk]
      · simp [Memory.erase, Memory.read_cons, ih, hk, hb]

/-- Inserting an address that is not listed puts its word there and leaves every other cell as it was. -/
theorem Memory.read_insert (m : Memory) (a b : Addr) (v : Word) (h : ∀ e ∈ m, e.1 ≠ a.toNat) :
    (m.insert a.toNat v).read b = if b = a then v else m.read b := by
  induction m with
  | nil =>
    by_cases hb : b = a
    · simp [Memory.insert, Memory.read, hb]
    · have : a.toNat ≠ b.toNat := fun e => hb (BitVec.eq_of_toNat_eq e.symm)
      simp [Memory.insert, Memory.read, hb, this]
  | cons e m ih =>
    obtain ⟨k, x⟩ := e
    have hk : k ≠ a.toNat := h (k, x) (by simp)
    have ih := ih (fun e he => h e (by simp [he]))
    by_cases hb : b = a
    · subst hb
      by_cases hlt : b.toNat < k <;> simp [Memory.insert, Memory.read_cons, hlt, ih, hk]
    · have : a.toNat ≠ b.toNat := fun e => hb (BitVec.eq_of_toNat_eq e.symm)
      by_cases hlt : a.toNat < k <;> simp [Memory.insert, Memory.read_cons, hlt, ih, hb, this]

theorem Memory.erase_not_listed (m : Memory) (k : Nat) : ∀ e ∈ m.erase k, e.1 ≠ k := by
  induction m with
  | nil => simp [Memory.erase]
  | cons e m ih =>
    obtain ⟨j, x⟩ := e
    by_cases hj : j = k
    · simpa [Memory.erase, hj] using ih
    · intro e he
      rw [Memory.erase, if_neg hj, List.mem_cons] at he
      rcases he with rfl | he
      · exact hj
      · exact ih e he

/-- Read after write, on every memory, canonical or not (R8 MemWrite, 20 R36). -/
theorem Memory.read_write (m : Memory) (a b : Addr) (v : Word) :
    (m.write a v).read b = if b = a then v else m.read b := by
  by_cases hv : v = 0
  · simp [Memory.write, hv, Memory.read_erase]
  · rw [Memory.write, if_neg hv, Memory.read_insert _ _ _ _ (Memory.erase_not_listed m _), Memory.read_erase]
    by_cases hb : b = a <;> simp [hb]

@[simp] theorem Memory.read_write_same (m : Memory) (a : Addr) (v : Word) : (m.write a v).read a = v := by
  simp [Memory.read_write]

theorem Memory.read_write_other (m : Memory) {a b : Addr} (v : Word) (h : b ≠ a) :
    (m.write a v).read b = m.read b := by
  simp [Memory.read_write, h]

@[simp] theorem State.writeMem_readMem (s : State) (a b : Addr) (v : Word) :
    (s.writeMem a v).readMem b = if b = a then v else s.readMem b := Memory.read_write s.mem a b v

theorem Memory.wfFrom_cons {lo k : Nat} {x : Word} {m : Memory} :
    Memory.wfFrom lo ((k, x) :: m) = true ↔ lo ≤ k ∧ k < 256 ∧ x ≠ 0 ∧ Memory.wfFrom (k + 1) m = true := by
  show (decide (lo ≤ k) && decide (k < 256) && decide (x ≠ 0) && Memory.wfFrom (k + 1) m) = true ↔ _
  simp only [Bool.and_eq_true, decide_eq_true_eq, and_assoc]

/-- The canonical form from an address on is the canonical form from any lower address on. -/
theorem Memory.wfFrom_mono {lo hi : Nat} {m : Memory} (hle : lo ≤ hi) (h : m.wfFrom hi = true) :
    m.wfFrom lo = true := by
  cases m with
  | nil => rfl
  | cons e m =>
    obtain ⟨k, x⟩ := e
    rw [Memory.wfFrom_cons] at h ⊢
    exact ⟨by omega, h.2⟩

theorem Memory.wfFrom_erase {lo : Nat} {m : Memory} (k : Nat) (h : m.wfFrom lo = true) :
    (m.erase k).wfFrom lo = true := by
  induction m generalizing lo with
  | nil => rfl
  | cons e m ih =>
    obtain ⟨j, x⟩ := e
    rw [Memory.wfFrom_cons] at h
    by_cases hj : j = k
    · rw [Memory.erase, if_pos hj]
      exact ih (Memory.wfFrom_mono (by omega) h.2.2.2)
    · rw [Memory.erase, if_neg hj, Memory.wfFrom_cons]
      exact ⟨h.1, h.2.1, h.2.2.1, ih h.2.2.2⟩

theorem Memory.wfFrom_insert {lo k : Nat} {m : Memory} {v : Word} (h : m.wfFrom lo = true)
    (hnew : ∀ e ∈ m, e.1 ≠ k) (hlo : lo ≤ k) (hk : k < 256) (hv : v ≠ 0) : (m.insert k v).wfFrom lo = true := by
  induction m generalizing lo with
  | nil => exact Memory.wfFrom_cons.mpr ⟨hlo, hk, hv, rfl⟩
  | cons e m ih =>
    obtain ⟨j, x⟩ := e
    have hjk : j ≠ k := hnew (j, x) (by simp)
    rw [Memory.wfFrom_cons] at h
    by_cases hlt : k < j
    · rw [Memory.insert, if_pos hlt, Memory.wfFrom_cons, Memory.wfFrom_cons]
      exact ⟨hlo, hk, hv, by omega, h.2⟩
    · rw [Memory.insert, if_neg hlt, Memory.wfFrom_cons]
      exact ⟨h.1, h.2.1, h.2.2.1, ih h.2.2.2 (fun e he => hnew e (by simp [he])) (by omega)⟩

/-- A write keeps the canonical form. -/
theorem Memory.wf_write {m : Memory} (a : Addr) (v : Word) (h : m.wf = true) : (m.write a v).wf = true := by
  by_cases hv : v = 0
  · rw [Memory.write, if_pos hv]
    exact Memory.wfFrom_erase _ h
  · rw [Memory.write, if_neg hv]
    exact Memory.wfFrom_insert (Memory.wfFrom_erase _ h) (Memory.erase_not_listed m _) (Nat.zero_le _) a.isLt hv

theorem Memory.wfFrom_ofFnFrom (f : Addr → Word) (n k : Nat) (h : k + n ≤ 256) :
    (Memory.ofFnFrom f n k).wfFrom k = true := by
  induction n generalizing k with
  | zero => rfl
  | succ n ih =>
    by_cases hz : f (BitVec.ofNat 8 k) = 0
    · rw [Memory.ofFnFrom, if_pos hz]
      exact Memory.wfFrom_mono (Nat.le_succ k) (ih (k + 1) (by omega))
    · rw [Memory.ofFnFrom, if_neg hz, Memory.wfFrom_cons]
      exact ⟨le_refl k, by omega, hz, ih (k + 1) (by omega)⟩

/-- A memory given by a function is in canonical form. -/
theorem Memory.wf_ofFn (f : Addr → Word) : (Memory.ofFn f).wf = true :=
  Memory.wfFrom_ofFnFrom f 256 0 (by omega)

theorem Memory.read_ofFnFrom (f : Addr → Word) (n k : Nat) (a : Addr) (h : k + n ≤ 256) :
    (Memory.ofFnFrom f n k).read a = if k ≤ a.toNat ∧ a.toNat < k + n then f a else 0 := by
  induction n generalizing k with
  | zero =>
    have : ¬(k ≤ a.toNat ∧ a.toNat < k + 0) := by omega
    rw [if_neg this]; rfl
  | succ n ih =>
    have ih := ih (k + 1) (by omega)
    by_cases hka : k = a.toNat
    · subst hka
      have ha : BitVec.ofNat 8 a.toNat = a := by simp
      have hout : ¬(a.toNat + 1 ≤ a.toNat ∧ a.toNat < a.toNat + 1 + n) := by omega
      by_cases hz : f a = 0
      · rw [Memory.ofFnFrom, ha, if_pos hz, ih, if_neg hout, hz]; simp
      · rw [Memory.ofFnFrom, ha, if_neg hz, Memory.read_cons, if_pos rfl]; simp
    · have hiff : (k + 1 ≤ a.toNat ∧ a.toNat < k + 1 + n) ↔ (k ≤ a.toNat ∧ a.toNat < k + (n + 1)) := by omega
      by_cases hz : f (BitVec.ofNat 8 k) = 0
      · rw [Memory.ofFnFrom, if_pos hz, ih]; simp only [hiff]
      · rw [Memory.ofFnFrom, if_neg hz, Memory.read_cons, if_neg hka, ih]; simp only [hiff]

/-- A memory given by a function reads as the function. -/
@[simp] theorem Memory.read_ofFn (f : Addr → Word) (a : Addr) : (Memory.ofFn f).read a = f a := by
  have h := Memory.read_ofFnFrom f 256 0 a (by omega)
  rw [Memory.ofFn, Config.memCells, h, if_pos ⟨Nat.zero_le _, by have := a.isLt; omega⟩]

theorem Memory.read_below {lo : Nat} {m : Memory} (h : m.wfFrom lo = true) {a : Addr} (ha : a.toNat < lo) :
    m.read a = 0 := by
  induction m generalizing lo with
  | nil => rfl
  | cons e m ih =>
    obtain ⟨k, x⟩ := e
    rw [Memory.wfFrom_cons] at h
    rw [Memory.read_cons, if_neg (by omega)]
    exact ih h.2.2.2 (by omega)

/-- Two canonical memories that read alike are equal data. -/
theorem Memory.ext_of_wfFrom {lo : Nat} {m q : Memory} (hm : m.wfFrom lo = true) (hq : q.wfFrom lo = true)
    (h : ∀ a, m.read a = q.read a) : m = q := by
  induction m generalizing lo q with
  | nil =>
    cases q with
    | nil => rfl
    | cons e q =>
      obtain ⟨k, x⟩ := e
      rw [Memory.wfFrom_cons] at hq
      have := h (BitVec.ofNat 8 k)
      rw [Memory.read_nil, Memory.read_cons, if_pos (by simp; omega)] at this
      exact absurd this.symm hq.2.2.1
  | cons e m ih =>
    obtain ⟨k, x⟩ := e
    cases q with
    | nil =>
      rw [Memory.wfFrom_cons] at hm
      have := h (BitVec.ofNat 8 k)
      rw [Memory.read_nil, Memory.read_cons, if_pos (by simp; omega)] at this
      exact absurd this hm.2.2.1
    | cons g q =>
      obtain ⟨j, y⟩ := g
      rw [Memory.wfFrom_cons] at hm hq
      have hk : (BitVec.ofNat 8 k).toNat = k := by simp; omega
      have hj : (BitVec.ofNat 8 j).toNat = j := by simp; omega
      have hkj : k = j := by
        rcases Nat.lt_trichotomy k j with hlt | heq | hlt
        · have e := h (BitVec.ofNat 8 k)
          rw [Memory.read_cons, if_pos hk.symm, Memory.read_cons, if_neg (by omega),
            Memory.read_below hq.2.2.2 (by omega)] at e
          exact absurd e hm.2.2.1
        · exact heq
        · have e := h (BitVec.ofNat 8 j)
          rw [Memory.read_cons, if_neg (by omega), Memory.read_cons, if_pos hj.symm,
            Memory.read_below hm.2.2.2 (by omega)] at e
          exact absurd e.symm hq.2.2.1
      subst hkj
      have hxy : x = y := by
        have e := h (BitVec.ofNat 8 k)
        rwa [Memory.read_cons, if_pos hk.symm, Memory.read_cons, if_pos hk.symm] at e
      have hrest : ∀ a, Memory.read m a = Memory.read q a := by
        intro a
        by_cases ha : k = a.toNat
        · rw [Memory.read_below hm.2.2.2 (by omega), Memory.read_below hq.2.2.2 (by omega)]
        · have e := h a
          rwa [Memory.read_cons, if_neg ha, Memory.read_cons, if_neg ha] at e
      rw [hxy, ih hm.2.2.2 hq.2.2.2 hrest]

/-- Equal contents, equal canonical memories. -/
theorem Memory.ext_of_wf {m q : Memory} (hm : m.wf = true) (hq : q.wf = true) (h : ∀ a, m.read a = q.read a) :
    m = q := Memory.ext_of_wfFrom hm hq h

theorem State.reset_mem_wf : State.reset.mem.wf = true := rfl

end Sys2Proof.Machine
end

