-- ==== Sys2Proof/Laws/HostInterface.lean ====
section
/-!
SUPPORT. The small lemmas of the host's texts: binary and hexadecimal tokens read back, cutting and joining lines,
and the cells a list of assignments leaves.
-/

namespace Sys2Proof.Machine

/-- A character that may stand inside a token of a description: not a separator, a line end or a comment mark. -/
def tokenChar (c : Char) : Prop := c ≠ ' ' ∧ c ≠ '\n' ∧ c ≠ '#' ∧ lineChar c = true

@[simp] theorem binText_length (n v : Nat) : (binText n v).length = n := by
  induction n with
  | zero => rfl
  | succ n ih => simp [binText, ih]

/-- Character `i` of `bin_N` is bit `n - 1 - i`: most significant first (20 R33). -/
theorem binText_getElem? (n v i : Nat) (h : i < n) :
    (binText n v)[i]? = some (if v.testBit (n - 1 - i) then '1' else '0') := by
  induction n generalizing i with
  | zero => omega
  | succ n ih =>
    cases i with
    | zero => simp [binText]
    | succ i =>
      have hi : n + 1 - 1 - (i + 1) = n - 1 - i := by omega
      rw [hi]
      simpa [binText] using ih i (by omega)

theorem bitValue_bit (b : Bool) : bitValue (if b then '1' else '0') = some b.toNat := by cases b <;> rfl

theorem binValue_binText (n v : Nat) : ∀ acc, binValue acc (binText n v) = some (acc * 2 ^ n + v % 2 ^ n) := by
  induction n with
  | zero => intro acc; simp [binText, binValue, Nat.mod_one]
  | succ n ih =>
    intro acc
    simp only [binText, binValue, bitValue_bit, ih]
    have hb : (v.testBit n).toNat = v / 2 ^ n % 2 := by
      rw [Nat.testBit_eq_decide_div_mod_eq]
      rcases Nat.mod_two_eq_zero_or_one (v / 2 ^ n) with h | h <;> simp [h]
    rw [Nat.mod_pow_succ, hb]
    congr 1
    ring

/-- A binary token reads back. -/
theorem parseBinary_binText (n v : Nat) (h : v < 2 ^ n) : parseBinary n (binText n v) = some v := by
  simp [parseBinary, binValue_binText, Nat.mod_eq_of_lt h]

theorem binText_tokenChar (n v : Nat) : ∀ c ∈ binText n v, tokenChar c := by
  induction n with
  | zero => intro c h; cases h
  | succ n ih =>
    intro c h
    rw [binText, List.mem_cons] at h
    rcases h with rfl | h
    · cases v.testBit n <;> simp [tokenChar, lineChar]
    · exact ih c h

theorem hexDigit_tokenChar : ∀ n : Fin 16, hexDigit n ≠ ' ' ∧ hexDigit n ≠ '\n' ∧ hexDigit n ≠ '#' ∧
    lineChar (hexDigit n) = true := by decide

theorem hexValue_hexDigit : ∀ n : Fin 16, hexValue false (hexDigit n) = some n.val := by decide

theorem hex2_tokenChar (a : Addr) : ∀ c ∈ hex2 a, tokenChar c := by
  intro c hc
  have := a.isLt
  simp only [hex2, List.mem_cons, List.not_mem_nil, or_false] at hc
  rcases hc with rfl | rfl
  · exact hexDigit_tokenChar ⟨a.toNat / 16, by omega⟩
  · exact hexDigit_tokenChar ⟨a.toNat % 16, by omega⟩

/-- An address token reads back. -/
theorem parseAddr_hex2 (a : Addr) : parseAddr false (hex2 a) = some a := by
  have := a.isLt
  have h1 := hexValue_hexDigit ⟨a.toNat / 16, by omega⟩
  have h2 := hexValue_hexDigit ⟨a.toNat % 16, by omega⟩
  simp only [hex2, parseAddr, h1, h2]
  have h3 : 16 * (a.toNat / 16) + a.toNat % 16 = a.toNat := by omega
  simp [h3]

theorem splitAtChar_append (sep : Char) (t rest : Text) (h : ∀ c ∈ t, c ≠ sep) :
    splitAtChar sep (t ++ sep :: rest) = t :: splitAtChar sep rest := by
  induction t with
  | nil => simp [splitAtChar]
  | cons c t ih =>
    have hc : c ≠ sep := h c (by simp)
    simp [splitAtChar, hc, ih (fun c hc => h c (by simp [hc]))]

theorem splitAtChar_single (sep : Char) (t : Text) (h : ∀ c ∈ t, c ≠ sep) : splitAtChar sep t = [t] := by
  induction t with
  | nil => simp [splitAtChar]
  | cons c t ih =>
    have hc : c ≠ sep := h c (by simp)
    simp [splitAtChar, hc, ih (fun c hc => h c (by simp [hc]))]

/-- A text without a comment mark is its own uncommented text. -/
theorem uncommented_eq_self (t : Text) (h : ∀ c ∈ t, c ≠ '#') : uncommented t = t := by
  rw [uncommented, List.takeWhile_eq_self_iff]
  intro c hc
  simpa using h c hc

/-- A comment is cut off. -/
theorem uncommented_append (t comment : Text) (h : ∀ c ∈ t, c ≠ '#') : uncommented (t ++ '#' :: comment) = t := by
  induction t with
  | nil => simp [uncommented]
  | cons c t ih =>
    have hc : c ≠ '#' := h c (by simp)
    have ih := ih (fun c hc => h c (by simp [hc]))
    simpa [uncommented, hc] using ih

/-- A line of printable characters without a comment mark is readable. -/
theorem readableLine_of_lineChar (t : Text) (h : ∀ c ∈ t, c ≠ '#' ∧ lineChar c = true) : readableLine t = true := by
  rw [readableLine, uncommented_eq_self t (fun c hc => (h c hc).1)]
  simpa using fun c hc => (h c hc).2

/-- The two tokens of a line with one space between them. -/
theorem tokensOf_pair (x y : Text) (hx : ∀ c ∈ x, tokenChar c) (hy : ∀ c ∈ y, tokenChar c) :
    tokensOf (x ++ ' ' :: y) = [x, y] := by
  rw [tokensOf, uncommented_eq_self, splitAtChar_append _ _ _ (fun c hc => (hx c hc).1),
    splitAtChar_single _ _ (fun c hc => (hy c hc).1)]
  intro c hc
  rw [List.mem_append, List.mem_cons] at hc
  rcases hc with hc | rfl | hc
  · exact (hx c hc).2.2.1
  · decide
  · exact (hy c hc).2.2.1

/-- What a list of assignments leaves in a cell. -/
theorem applyCells_read (a : Addr) (cs : List (Addr × Word)) :
    ∀ m : Memory, (applyCells m cs).read a = lastAssigned a (m.read a) cs := by
  induction cs with
  | nil => intro m; rfl
  | cons e cs ih =>
    intro m
    obtain ⟨b, v⟩ := e
    rw [applyCells, ih, Memory.read_write, lastAssigned]
    by_cases hb : b = a
    · simp [hb]
    · simp [hb, show a ≠ b from fun h => hb h.symm]

/-- Assignments keep the canonical form. -/
theorem applyCells_wf (cs : List (Addr × Word)) : ∀ m : Memory, m.wf = true → (applyCells m cs).wf = true := by
  induction cs with
  | nil => intro m h; exact h
  | cons e cs ih => intro m h; exact ih _ (Memory.wf_write _ _ h)

end Sys2Proof.Machine
end

