-- ==== Sys2Proof/Laws/Step.lean ====
section
/-!
SUPPORT. What the shared operations and one step can do: the adder and the ALU as bit-vector arithmetic, the fields of
an instruction word, `retire`, and one equation per instruction's meaning.
-/

namespace Sys2Proof.Machine

open Host

/-! ### Narrowing -/

theorem trunc12_natCast (w : Word) : trunc12 (w.toNat : Int) = w := by simp [trunc12]

theorem addrInc_eq (x : Addr) : addrInc x = x + 1 := by
  simp [addrInc, trunc8, BitVec.ofInt_add]

theorem addrDec_eq (x : Addr) : addrDec x = x - 1 := by
  simp [addrDec, trunc8, Int.sub_eq_add_neg, BitVec.ofInt_add, BitVec.sub_eq_add_neg, BitVec.ofInt_neg]

theorem aluAdd_eq (x y : Word) : aluAdd x y = x + y := by
  simp [aluAdd, trunc12, BitVec.ofInt_add]

theorem aluSub_eq (x y : Word) : aluSub x y = x - y := by
  simp [aluSub, trunc12, Int.sub_eq_add_neg, BitVec.ofInt_add, BitVec.sub_eq_add_neg, BitVec.ofInt_neg]

/-- Phase 5 changes nothing on a 12-bit accumulator (10 R19). -/
@[simp] theorem State.maskAcc_eq (s : State) : s.maskAcc = s := by
  simp [State.maskAcc, State.setAcc, trunc12_natCast]

/-! ### Fields of an instruction word -/

@[simp] theorem opcodeOf_append (op : OpNibble) (a : Addr) : opcodeOf (op ++ a) = op := by
  show BitVec.extractLsb' 8 4 (op ++ a : BitVec (4 + 8)) = op
  ext i hi
  rw [BitVec.getElem_extractLsb', BitVec.getLsbD_append]
  simp [hi]

@[simp] theorem operandOf_append (op : OpNibble) (a : Addr) : operandOf (op ++ a) = a := by
  show BitVec.extractLsb' 0 8 (op ++ a : BitVec (4 + 8)) = a
  ext i hi
  rw [BitVec.getElem_extractLsb', BitVec.getLsbD_append]
  simp [hi]

theorem opcodeOf_append_operandOf (w : Word) : (opcodeOf w ++ operandOf w : Word) = w := by
  ext i hi
  simp only [opcodeOf, operandOf, BitVec.getElem_append, BitVec.getElem_extractLsb']
  by_cases h : i < 8
  · simp [h, BitVec.getLsbD_eq_getElem hi]
  · have : 8 + (i - 8) = i := by omega
    simp [h, this, BitVec.getLsbD_eq_getElem hi]

theorem decode_append (op : OpNibble) (a : Addr) : decode (op ++ a) = decodeRow op a := by
  simp [decode]

theorem decodeRow_opcode (op : OpNibble) (a : Addr) : (decodeRow op a).opcode = op := by
  revert op; decide +revert

theorem decodeRow_operand (op : OpNibble) (a : Addr) : (decodeRow op a).operand = a := by
  unfold decodeRow; split <;> rfl

/-- The opcode of a decoded word is its bits 11..8. -/
theorem decode_opcode (w : Word) : (decode w).opcode = opcodeOf w := decodeRow_opcode _ _

/-- The operand of a decoded word is its bits 7..0. -/
theorem decode_operand (w : Word) : (decode w).operand = operandOf w := decodeRow_operand _ _

/-- A pointer names the cell of its low 8 bits (30 R53). -/
theorem pointerAddr_eq (w : Word) : pointerAddr w = BitVec.ofNat 8 (w.toNat % 256) := by
  apply BitVec.eq_of_toNat_eq
  simp [pointerAddr, BitVec.extractLsb'_toNat]

/-! ### One step -/

@[simp] theorem branchIf_pc (c : Bool) (a : Addr) (s : State) :
    (branchIf c a s).pc = if c then a else s.pc := by cases c <;> rfl

@[simp] theorem branchIf_acc (c : Bool) (a : Addr) (s : State) : (branchIf c a s).acc = s.acc := by cases c <;> rfl

@[simp] theorem branchIf_mem (c : Bool) (a : Addr) (s : State) : (branchIf c a s).mem = s.mem := by cases c <;> rfl

@[simp] theorem branchIf_trace (c : Bool) (a : Addr) (s : State) : (branchIf c a s).trace = s.trace := by
  cases c <;> rfl

@[simp] theorem branchIf_loaded (c : Bool) (a : Addr) (s : State) : (branchIf c a s).loaded = s.loaded := by
  cases c <;> rfl

@[simp] theorem retire_next (ir : Word) (s : State) : retire ir (.next s) = .next (s.record ir) := by
  simp [retire]

/-- When `retire` answers a next state, phase 4 did, and only the record was added. -/
theorem retire_eq_next {ir : Word} {o : Outcome State Fault Refusal} {t : State} (h : retire ir o = .next t) :
    ∃ u, o = .next u ∧ t = u.record ir := by
  cases o with
  | next u => exact ⟨u, rfl, by simpa using h.symm⟩
  | fault f => cases h
  | refused r => cases h

theorem step_loaded {s : State} (h : s.loaded = true) : step s = retire s.fetch (exec (decode s.fetch) s.advancePc) := by
  simp [step, h]

/-- All a step that answers a next state can have done: the core was loaded, phase 4 ran on the advanced state, and
the fetched word was recorded. -/
theorem step_eq_next {s t : State} (h : step s = .next t) :
    s.loaded = true ∧ ∃ u, exec (decode s.fetch) s.advancePc = .next u ∧ t = u.record s.fetch := by
  cases hl : s.loaded with
  | true => exact ⟨rfl, retire_eq_next (by rw [← step_loaded hl]; exact h)⟩
  | false => simp [step, hl] at h

/-! ### The meanings, one equation each -/

theorem exec_op0 (a : Addr) (s : State) : exec (.op0 a) s = .next s := rfl
theorem exec_op1 (a : Addr) (s : State) : exec (.op1 a) s = .next s := rfl
theorem exec_opb (a : Addr) (s : State) : exec (.opb a) s = .next s := rfl
theorem exec_opc (a : Addr) (s : State) : exec (.opc a) s = .next s := rfl
theorem exec_opd (a : Addr) (s : State) : exec (.opd a) s = .next s := rfl
theorem exec_ope (a : Addr) (s : State) : exec (.ope a) s = .next s := rfl
theorem exec_sub (a : Addr) (s : State) : exec (.sub a) s = .next (s.setAcc (aluSub s.acc (s.readMem a))) := rfl
theorem exec_add (a : Addr) (s : State) : exec (.add a) s = .next (s.setAcc (aluAdd s.acc (s.readMem a))) := rfl
theorem exec_load (a : Addr) (s : State) : exec (.load a) s = .next (s.setAcc (s.readMem a)) := rfl
theorem exec_store (a : Addr) (s : State) : exec (.store a) s = .next (s.writeMem a s.acc) := rfl
theorem exec_loadi (a : Addr) (s : State) :
    exec (.loadi a) s = .next (s.setAcc (s.readMem (indirectAddr s a))) := rfl
theorem exec_storei (a : Addr) (s : State) :
    exec (.storei a) s = .next (s.writeMem (indirectAddr s a) s.acc) := rfl
theorem exec_jz (a : Addr) (s : State) : exec (.jz a) s = .next (branchIf (isZero s.acc) a s) := rfl
theorem exec_jn (a : Addr) (s : State) : exec (.jn a) s = .next (branchIf (isNegative s.acc) a s) := rfl
theorem exec_jmp (a : Addr) (s : State) : exec (.jmp a) s = .next (s.setPc a) := rfl
theorem exec_halt (a : Addr) (s : State) : exec (.halt a) s = .next (s.setPc (addrDec s.pc)) := rfl

/-- Every instruction's phase 4 answers a next state and leaves the Trace and the loaded mark alone. -/
theorem exec_next (i : Instr) (s : State) :
    ∃ t, exec i s = .next t ∧ t.trace = s.trace ∧ t.loaded = s.loaded := by
  cases i
  case jz a => exact ⟨_, exec_jz a s, branchIf_trace _ _ _, branchIf_loaded _ _ _⟩
  case jn a => exact ⟨_, exec_jn a s, branchIf_trace _ _ _, branchIf_loaded _ _ _⟩
  all_goals exact ⟨_, rfl, rfl, rfl⟩

/-- All that phase 4 of an instruction can do to memory: nothing, or one write of ACC by STORE or STOREI. -/
theorem exec_mem_cases {i : Instr} {s t : State} (h : exec i s = .next t) :
    t.mem = s.mem ∨
    (∃ a, i = .store a ∧ t.mem = s.mem.write a s.acc) ∨
    (∃ a, i = .storei a ∧ t.mem = s.mem.write (indirectAddr s a) s.acc) := by
  cases i <;> injection h with h <;> subst h
  case jz a => exact .inl (branchIf_mem _ _ _)
  case jn a => exact .inl (branchIf_mem _ _ _)
  case store a => exact .inr (.inl ⟨a, rfl, rfl⟩)
  case storei a => exact .inr (.inr ⟨a, rfl, rfl⟩)
  all_goals exact .inl rfl

/-- All that phase 4 of an instruction can do to ACC: nothing, or the result of SUB, ADD, LOAD or LOADI. -/
theorem exec_acc_cases {i : Instr} {s t : State} (h : exec i s = .next t) :
    t.acc = s.acc ∨
    (∃ a, i = .sub a ∧ t.acc = aluSub s.acc (s.readMem a)) ∨
    (∃ a, i = .add a ∧ t.acc = aluAdd s.acc (s.readMem a)) ∨
    (∃ a, i = .load a ∧ t.acc = s.readMem a) ∨
    (∃ a, i = .loadi a ∧ t.acc = s.readMem (indirectAddr s a)) := by
  cases i <;> injection h with h <;> subst h
  case jz a => exact .inl (branchIf_acc _ _ _)
  case jn a => exact .inl (branchIf_acc _ _ _)
  case sub a => exact .inr (.inl ⟨a, rfl, rfl⟩)
  case add a => exact .inr (.inr (.inl ⟨a, rfl, rfl⟩))
  case load a => exact .inr (.inr (.inr (.inl ⟨a, rfl, rfl⟩)))
  case loadi a => exact .inr (.inr (.inr (.inr ⟨a, rfl, rfl⟩)))
  all_goals exact .inl rfl

end Sys2Proof.Machine
end

