-- ==== Sys2Proof/Laws/PerInstr.lean ====
section
/-!
SUPPORT. A fact about every instruction as syntax, one lemma per constructor: its word holds its opcode in bits
11..8 and its operand in bits 7..0 (30_encoding.md R50).
-/

namespace Sys2Proof.Laws

open Sys2Proof.Machine

/-- The two fields of the instruction's word are its opcode and its operand, and it is well-formed. -/
def Encoding.Statement (i : Instr) : Prop :=
  opcodeOf (encode i) = i.opcode ∧ operandOf (encode i) = i.operand ∧ i.wellFormed = true

theorem Encoding.fields (i : Instr) (h : i.wellFormed = true) : Encoding.Statement i :=
  ⟨opcodeOf_append _ _, operandOf_append _ _, h⟩

theorem Encoding.inRange (a : Addr) : decide (a.toNat < Config.memCells) = true := decide_eq_true a.isLt

theorem Encoding.op0 (a : Addr) : Encoding.Statement (.op0 a) := Encoding.fields _ (Encoding.inRange a)
theorem Encoding.op1 (a : Addr) : Encoding.Statement (.op1 a) := Encoding.fields _ (Encoding.inRange a)
theorem Encoding.sub (a : Addr) : Encoding.Statement (.sub a) := Encoding.fields _ (Encoding.inRange a)
theorem Encoding.add (a : Addr) : Encoding.Statement (.add a) := Encoding.fields _ (Encoding.inRange a)
theorem Encoding.load (a : Addr) : Encoding.Statement (.load a) := Encoding.fields _ (Encoding.inRange a)
theorem Encoding.store (a : Addr) : Encoding.Statement (.store a) := Encoding.fields _ (Encoding.inRange a)
theorem Encoding.loadi (a : Addr) : Encoding.Statement (.loadi a) := Encoding.fields _ (Encoding.inRange a)
theorem Encoding.storei (a : Addr) : Encoding.Statement (.storei a) := Encoding.fields _ (Encoding.inRange a)
theorem Encoding.jz (a : Addr) : Encoding.Statement (.jz a) := Encoding.fields _ (Encoding.inRange a)
theorem Encoding.jn (a : Addr) : Encoding.Statement (.jn a) := Encoding.fields _ (Encoding.inRange a)
theorem Encoding.jmp (a : Addr) : Encoding.Statement (.jmp a) := Encoding.fields _ (Encoding.inRange a)
theorem Encoding.opb (a : Addr) : Encoding.Statement (.opb a) := Encoding.fields _ (Encoding.inRange a)
theorem Encoding.opc (a : Addr) : Encoding.Statement (.opc a) := Encoding.fields _ (Encoding.inRange a)
theorem Encoding.opd (a : Addr) : Encoding.Statement (.opd a) := Encoding.fields _ (Encoding.inRange a)
theorem Encoding.ope (a : Addr) : Encoding.Statement (.ope a) := Encoding.fields _ (Encoding.inRange a)
theorem Encoding.halt (a : Addr) : Encoding.Statement (.halt a) := Encoding.fields _ (Encoding.inRange a)

end Sys2Proof.Laws
end

