-- ==== Sys2Proof/Laws/Run.lean ====
section
/-!
SUPPORT. The unfolding of runs: no step, one step first, two runs in a row, and the end found at once.
-/

namespace Sys2Proof.Machine

@[simp] theorem runSteps_zero (s : State) : runSteps 0 s = .next s := rfl

theorem runSteps_succ {s t : State} (n : Nat) (h : step s = .next t) : runSteps (n + 1) s = runSteps n t := by
  simp [runSteps, h]

/-- A run of one step more that answers a next state began with a step that did. -/
theorem runSteps_succ_eq_next {n : Nat} {s u : State} (h : runSteps (n + 1) s = .next u) :
    ∃ t, step s = .next t ∧ runSteps n t = .next u := by
  cases hs : step s with
  | next t => exact ⟨t, rfl, by rwa [runSteps_succ n hs] at h⟩
  | fault f => simp [runSteps, hs] at h
  | refused r => simp [runSteps, hs] at h

/-- Two runs in a row are one run. -/
theorem runSteps_add {n : Nat} {s t : State} (m : Nat) (h : runSteps n s = .next t) :
    runSteps (n + m) s = runSteps m t := by
  induction n generalizing s with
  | zero => injection h with h; subst h; rw [Nat.zero_add]
  | succ n ih =>
    obtain ⟨u, hu, hr⟩ := runSteps_succ_eq_next h
    rw [Nat.succ_add_eq_add_succ, Nat.add_succ, runSteps_succ _ hu, ih hr]

theorem endWithin_halted {s : State} (n : Nat) (h : halted s) : endWithin n s = some (0, s) := by
  cases n <;> simp [endWithin, h]

theorem endWithin_succ {s t : State} (n : Nat) (h : ¬halted s) (hs : step s = .next t) :
    endWithin (n + 1) s = (endWithin n t).map fun e => (e.1 + 1, e.2) := by
  simp [endWithin, h, hs]

end Sys2Proof.Machine
end

