-- ==== Sys2Proof/Tests/Slice0.lean ====
section
/-!
SUPPORT. Tests of the model against 95_test_vectors.md (each names its vector) and, for every statement with
hypotheses, a witness that meets them together.
-/

namespace Sys2Proof.Tests

open Host
open Sys2Proof.Machine

/-- A loaded core with the cells listed, all others 0. -/
def core (pc : Addr) (acc : Word) (cells : List (Addr × Word)) : State :=
  State.ofDescription { pc := pc, acc := acc, cells := cells }

/-- PC and ACC after one step. -/
def stepRegs (s : State) : Option (Addr × Word) :=
  match step s with
  | .next t => some (t.pc, t.acc)
  | .fault _ => none
  | .refused _ => none

/-- The content of a cell after one step. -/
def stepCell (s : State) (a : Addr) : Option Word :=
  match step s with
  | .next t => some (t.readMem a)
  | .fault _ => none
  | .refused _ => none

/-- The state after some steps. -/
def afterSteps (n : Nat) (s : State) : Option State :=
  match runSteps n s with
  | .next t => some t
  | .fault _ => none
  | .refused _ => none

/-! ### Well-formedness: the one check that can refuse, at its edge (30 R50, R54) -/

theorem test_word_4096_is_ill_formed : wordInRange 4096 = false := by decide
theorem test_word_4095_is_well_formed : wordInRange 4095 = true := by decide
theorem test_ill_formed_word_is_not_decoded : decodeTableWord 16 0x1000 = none := by decide
theorem test_operand_ff_is_well_formed : (Instr.halt 0xFF#8).wellFormed = true := by decide

/-! ### Decoding: words written out bit by bit (95 section 3), and the encoder -/

theorem test_decode_op0 : decode 0b000011111111#12 = .op0 0xFF#8 := by decide
theorem test_decode_op1 : decode 0b000111111111#12 = .op1 0xFF#8 := by decide
theorem test_decode_sub : decode 0b001000000000#12 = .sub 0x00#8 := by decide
theorem test_decode_add : decode 0b001111111111#12 = .add 0xFF#8 := by decide
theorem test_decode_load : decode 0b010000000000#12 = .load 0x00#8 := by decide
theorem test_decode_store : decode 0b010111111111#12 = .store 0xFF#8 := by decide
theorem test_decode_loadi : decode 0b011000010000#12 = .loadi 0x10#8 := by decide
theorem test_decode_storei : decode 0b011111111111#12 = .storei 0xFF#8 := by decide
theorem test_decode_jz : decode 0b100000001010#12 = .jz 0x0A#8 := by decide
theorem test_decode_jn : decode 0b100100000101#12 = .jn 0x05#8 := by decide
theorem test_decode_jmp : decode 0b101011111111#12 = .jmp 0xFF#8 := by decide
theorem test_decode_opb : decode 0b101100000000#12 = .opb 0x00#8 := by decide
theorem test_decode_opc : decode 0b110011111111#12 = .opc 0xFF#8 := by decide
theorem test_decode_opd : decode 0b110100000000#12 = .opd 0x00#8 := by decide
theorem test_decode_ope : decode 0b111011111111#12 = .ope 0xFF#8 := by decide
theorem test_decode_halt : decode 0b111110101011#12 = .halt 0xAB#8 := by decide
theorem test_encode_storei : encode (.storei 0x31#8) = 0b011100110001#12 := by decide
theorem test_table_word_in_whole_bytes : decodeTableWord 16 0x610 = some (.loadi 0x10#8) := by decide

/-! ### Single steps (95 section 4) -/

theorem test_sub_wraps : stepRegs (core 0x00 0x005 [(0x00, 0x210), (0x10, 0x007)]) = some (0x01, 0xFFE) := by
  decide -- V-SUB-3
theorem test_sub_own_word_at_top : stepRegs (core 0xFF 0x300 [(0xFF, 0x2FF)]) = some (0x00, 0x001) := by
  decide -- V-SUB-12
theorem test_add_wraps : stepRegs (core 0x00 0xFFF [(0x00, 0x310), (0x10, 0xFFF)]) = some (0x01, 0xFFE) := by
  decide -- V-ADD-3
theorem test_add_at_top : stepRegs (core 0xFF 0x001 [(0xFF, 0x300), (0x00, 0x0FE)]) = some (0x00, 0x0FF) := by
  decide -- V-ADD-9
theorem test_load_unassigned : stepRegs (core 0x00 0xABC [(0x00, 0x410)]) = some (0x01, 0x000) := by
  decide -- V-LOAD-2
theorem test_load_all_bits : stepRegs (core 0x00 0x000 [(0x00, 0x410), (0x10, 0xFFF)]) = some (0x01, 0xFFF) := by
  decide -- V-LOAD-4
theorem test_store_own_cell : stepCell (core 0x05 0xF00 [(0x05, 0x505), (0x06, 0xA05)]) 0x05 = some 0xF00 := by
  decide -- V-STORE-2
theorem test_store_next_instruction :
    (afterSteps 2 (core 0x05 0xA20 [(0x05, 0x506), (0x06, 0xF00)])).map (fun t => (t.pc, t.acc, t.trace)) =
      some (0x20, 0xA20, [0x506, 0xA20]) := by
  decide -- V-STORE-3
theorem test_loadi_ignores_high_bits :
    stepRegs (core 0x00 0x000 [(0x00, 0x630), (0x30, 0xF40), (0x40, 0xABC)]) = some (0x01, 0xABC) := by
  decide -- V-LOADI-2
theorem test_loadi_one_level :
    stepRegs (core 0x00 0x000 [(0x00, 0x610), (0x10, 0x020), (0x20, 0x030), (0x30, 0x555)]) = some (0x01, 0x030) := by
  decide -- V-LOADI-7
theorem test_storei_ignores_high_bits : stepCell (core 0x01 0xABC [(0x01, 0x731), (0x31, 0xF41)]) 0x41 = some 0xABC := by
  decide -- V-STOREI-2
theorem test_storei_own_pointer : stepCell (core 0x00 0x123 [(0x00, 0x730), (0x30, 0x030)]) 0x30 = some 0x123 := by
  decide -- V-STOREI-3
theorem test_jz_taken : stepRegs (core 0x03 0x000 [(0x03, 0x80A)]) = some (0x0A, 0x000) := by
  decide -- V-JZ-1
theorem test_jz_high_nibble_only : stepRegs (core 0x03 0x100 [(0x03, 0x80A)]) = some (0x04, 0x100) := by
  decide -- V-JZ-8
theorem test_jn_least : stepRegs (core 0x02 0x800 [(0x02, 0x905)]) = some (0x05, 0x800) := by
  decide -- V-JN-4
theorem test_jn_not_taken_wraps : stepRegs (core 0xFF 0x7FF [(0xFF, 0x980)]) = some (0x00, 0x7FF) := by
  decide -- V-JN-6
theorem test_jmp : stepRegs (core 0x04 0x123 [(0x04, 0xA01)]) = some (0x01, 0x123) := by
  decide -- V-JMP-1
theorem test_jmp_to_top : stepRegs (core 0x00 0x000 [(0x00, 0xAFF)]) = some (0xFF, 0x000) := by
  decide -- V-JMP-5
theorem test_halt_at_top : stepRegs (core 0xFF 0x000 [(0xFF, 0xF00)]) = some (0xFF, 0x000) := by
  decide -- V-HALT-3
theorem test_halt_repeats :
    (afterSteps 3 (core 0x03 0x00C [(0x03, 0xF00)])).map (fun t => (t.pc, t.acc, t.trace)) =
      some (0x03, 0x00C, [0xF00, 0xF00, 0xF00]) := by
  decide -- V-HALT-5
theorem test_op0 : stepRegs (core 0x07 0x123 [(0x07, 0x0FF)]) = some (0x08, 0x123) := by
  decide -- V-OP0-2
theorem test_op1_wraps : stepRegs (core 0xFF 0x001 [(0xFF, 0x1A5)]) = some (0x00, 0x001) := by
  decide -- V-OP1-1
theorem test_opb : stepRegs (core 0xFE 0x000 [(0xFE, 0xB55)]) = some (0xFF, 0x000) := by
  decide -- V-OPB-1
theorem test_opc : stepRegs (core 0x20 0x000 [(0x20, 0xC00)]) = some (0x21, 0x000) := by
  decide -- V-OPC-1
theorem test_opd : stepRegs (core 0x21 0x000 [(0x21, 0xDFF)]) = some (0x22, 0x000) := by
  decide -- V-OPD-1
theorem test_ope : stepRegs (core 0x22 0xFFF [(0x22, 0xE0F)]) = some (0x23, 0xFFF) := by
  decide -- V-OPE-1

/-- The first instruction after reset, placed by the host's entry point. -/
theorem test_with_fetch_word : stepRegs (State.reset.withFetchWord 16 0xA42) = some (0x42, 0x000) := by decide

/-! ### The host's texts (95 section 6) -/

/-- T2: duplicates and order. -/
theorem test_load_duplicates :
    parseDescription false "11111110 101010111100\n10 000000000001\n0F 000000000010\n10 000000000011".toList =
      some { pc := 0xFE, acc := 0xABC, cells := [(0x10, 0x001), (0x0F, 0x002), (0x10, 0x003)] } := by decide

/-- T1, shortened: comment lines, a blank line and a trailing comment. -/
theorem test_load_comments :
    parseDescription false "# P1\n00000000 000000000000\n# code\n03 111100000000# HALT 00\n\n10 000000000101\n".toList =
      some { pc := 0, acc := 0, cells := [(0x03, 0xF00), (0x10, 0x005)] } := by decide

/-- R131: a comment is discarded whatever it holds, a tab too; outside a comment a tab is open (U4), and so is a
carriage return anywhere (U8). -/
theorem test_load_tab_and_return :
    (parseDescription false "# a\tb\n00000000 000000000000#\t# c".toList).isSome = true ∧
    parseDescription false "00000000\t000000000000".toList = none ∧
    parseDescription false "00000000 000000000000# c\r\n".toList = none := by decide

/-- T6: a line of one token is skipped. -/
theorem test_load_skips_one_token :
    parseDescription false "00000000 000000000000\n10\n11 000000000111".toList =
      some { pc := 0, acc := 0, cells := [(0x11, 0x007)] } := by decide

/-- T5a to T5f: descriptions that Load must reject. -/
theorem test_load_rejects :
    parseDescription false "# only a comment\n00000000".toList = none ∧ parseDescription false [] = none ∧
    parseDescription false "0000000 000000000000".toList = none ∧
    parseDescription false "00000000 00000000000".toList = none ∧
    parseDescription false "00000002 000000000000".toList = none ∧
    parseDescription false "00000000 000000000000\n10 0000000001".toList = none := by decide

/-- P1, the program of T1. -/
def p1 : State := core 0x00 0x000 [(0x00, 0x410), (0x01, 0x311), (0x02, 0x512), (0x03, 0xF00), (0x10, 5), (0x11, 7)]

/-- T3: the three steps that bring P1 to its end. -/
theorem test_end_of_run :
    (endWithin 9 p1).map (fun e => (e.1, e.2.pc, e.2.acc, e.2.trace)) =
      some (3, 0x03, 0x00C, [0x410, 0x311, 0x512]) ∧ endWithin 2 p1 = none := by decide

/-- T4: the trace of P1 as the driver leaves it. -/
theorem test_driver_trace :
    (match drive 9 p1 with
      | .next t => some (t.readMem 0x12, joinLines (traceLines t))
      | .fault _ => none
      | .refused _ => none) = some (0x00C, "LOAD 10\nADD 11\nSTORE 12\nHALT 00".toList) := by decide

/-- T3, the header and one line of the snapshot. -/
theorem test_snapshot_lines :
    headerLine (core 0x03 0x00C []) = "00000011 000000001100".toList ∧
    cellLine (core 0x03 0x00C [(0x0F, 0xF00)]) 0x0F = "0F 111100000000".toList := by decide

/-! ### Witnesses: for every statement with hypotheses, a case that meets them -/

theorem witness_DecodingDependsOnOpcodeBitsOnly : opcodeOf 0x200#12 = opcodeOf 0x2FF#12 ∧ 4095 < 4096 := by decide
theorem witness_DecodeAndEncodeAreInverse : (Instr.storei 0xFF#8).wellFormed = true := by decide
theorem witness_StepRunsDecodedInstruction :
    (core 0xFF 0 [(0xFF, 0x2FF)]).loaded = true ∧
      decode ((core 0xFF 0 [(0xFF, 0x2FF)]).mem.read 0xFF) = .sub 0xFF ∧ (Instr.sub 0xFF).wellFormed = true := by decide
theorem witness_StepIsTotalAndDeterministic :
    State.reset.loaded = true ∧ ({ State.reset with trace := [0x123] } : State).loaded = true ∧
      step State.reset = .next { State.reset with pc := 1, trace := [0] } := ⟨rfl, rfl, rfl⟩

/-- For the step clause of each instruction statement, opcode `op`: a loaded core whose PC holds that word. -/
theorem witness_instruction_words :
    ∀ op : OpNibble, (State.reset.withFetchWord 12 (op.toNat * 256 + 0x10)).loaded = true ∧
      (State.reset.withFetchWord 12 (op.toNat * 256 + 0x10)).mem.read 0 = op ++ 0x10#8 := by decide

/-- For LOADI and STOREI: the pointer hypothesis at a pointer word with high bits set. -/
theorem witness_pointer :
    (0x40#8 : Addr) = BitVec.ofNat 8 (((core 0 0 [(0x30, 0xF40)]).mem.read 0x30).toNat % 256) := by decide

/-- Both sides of the two branch conditions. -/
theorem witness_branch_sides :
    (0x000#12 : Word).toNat = 0 ∧ (0x800#12 : Word).toNat ≠ 0 ∧ sext12 0x800#12 < 0 ∧ ¬sext12 0x7FF#12 < 0 := by decide

theorem witness_AccumulatorWritersFrame :
    exec (.sub 0x10) (core 0 5 [(0x10, 7)]) = .next { core 0 5 [(0x10, 7)] with acc := 0xFFE } ∧
    exec (.add 0x10) (core 0 5 [(0x10, 7)]) = .next { core 0 5 [(0x10, 7)] with acc := 12 } ∧
    exec (.load 0x10) (core 0 5 [(0x10, 7)]) = .next { core 0 5 [(0x10, 7)] with acc := 7 } ∧
    exec (.loadi 0x10) (core 0 5 [(0x10, 0x710)]) = .next { core 0 5 [(0x10, 0x710)] with acc := 0x710 } :=
  ⟨rfl, rfl, rfl, rfl⟩
theorem witness_StoresFrame :
    exec (.store 0x10) (core 0 5 []) = .next { core 0 5 [] with mem := [(0x10, 5)] } ∧
    exec (.storei 0x10) (core 0 5 []) = .next { core 0 5 [] with mem := [(0x00, 5)] } := ⟨rfl, rfl⟩
theorem witness_TransfersFrame :
    exec (.jz 0x10) (core 0 0 []) = .next { core 0 0 [] with pc := 0x10 } ∧
    exec (.jn 0x10) (core 0 0 []) = .next (core 0 0 []) ∧
    exec (.jmp 0x10) (core 0 0 []) = .next { core 0 0 [] with pc := 0x10 } ∧
    exec (.halt 0x10) (core 0 0 []) = .next { core 0 0 [] with pc := 0xFF } := ⟨rfl, rfl, rfl, rfl⟩
theorem witness_UndefinedOpcodesFrame :
    decode (core 0 5 [(0, 0xE0F)]).fetch = .ope 0x0F ∧
      step (core 0 5 [(0, 0xE0F)]) = .next { core 0 5 [(0, 0xE0F)] with pc := 1, trace := [0xE0F] } := ⟨rfl, rfl⟩

/-- For PcAfterEachInstruction, StepFrameConditions, ArbiterOrdersAccesses and TraceRecordsFetchedWord: a step that
changes a cell, and (next) one that leaves PC where it was. -/
theorem witness_storing_step :
    step (core 0x05 0xF00 [(0x05, 0x505)]) =
      .next { core 0x05 0xF00 [(0x05, 0xF00)] with pc := 0x06, trace := [0x505] } := rfl
theorem witness_step_to_itself :
    step (core 0x04 0 [(0x04, 0xA04)]) = .next { core 0x04 0 [(0x04, 0xA04)] with trace := [0xA04] } := rfl
theorem witness_accumulator_step :
    step (core 0 0 [(0, 0x400)]) = .next { core 0 0x400 [(0, 0x400)] with pc := 1, trace := [0x400] } := rfl

theorem witness_StepDependsOnlyOnReadCells :
    (∀ b ∈ readCells (core 0 0 [(0, 0x610), (0x10, 0x20), (0x30, 1)]),
      (core 0 0 [(0, 0x610), (0x10, 0x20), (0x30, 1)]).readMem b = (core 0 0 [(0, 0x610), (0x10, 0x20)]).readMem b) ∧
    (core 0 0 [(0, 0x610), (0x10, 0x20), (0x30, 1)]).readMem 0x30 ≠ (core 0 0 [(0, 0x610), (0x10, 0x20)]).readMem 0x30 := by
  decide

/-- A store, then a step that does not write the cell: the next fetch is the stored word. -/
theorem witness_StoredWordIsSeenByLaterFetches :
    step (core 0 0xA20 [(0, 0x502)]) = .next { core 1 0xA20 [(0, 0x502), (2, 0xA20)] with trace := [0x502] } ∧
    (0x02 : Addr) ∈ writtenCells (core 0 0xA20 [(0, 0x502)]) ∧
    runSteps 1 { core 1 0xA20 [(0, 0x502), (2, 0xA20)] with trace := [0x502] } =
      .next { core 2 0xA20 [(0, 0x502), (2, 0xA20)] with trace := [0x502, 0x000] } ∧
    (∀ k v, k < 1 → runSteps k { core 1 0xA20 [(0, 0x502), (2, 0xA20)] with trace := [0x502] } = .next v →
      (0x02 : Addr) ∉ writtenCells v) := by
  refine ⟨rfl, by decide, rfl, fun k v hk hv => ?_⟩
  obtain rfl : k = 0 := by omega
  injection hv with hv
  subst hv
  decide

/-- The signed ranges at their edges. -/
theorem witness_ArithmeticIsSignAgnostic :
    (-2048 ≤ sext12 0x7FF#12 + sext12 0x000#12 ∧ sext12 0x7FF#12 + sext12 0x000#12 ≤ 2047) ∧
    (-2048 ≤ sext12 0x800#12 - sext12 0x000#12 ∧ sext12 0x800#12 - sext12 0x000#12 ≤ 2047) := by decide
theorem witness_AddThenSubRestores :
    exec (.add 0x10) (core 0 0xFFF [(0x10, 1)]) = .next { core 0 0xFFF [(0x10, 1)] with acc := 0 } := rfl
theorem witness_StepKeepsMemoryCanonical :
    (core 0x05 0xF00 [(0x05, 0x505)]).canonical ∧ stepCell (core 0x05 0xF00 [(0x05, 0x505)]) 0x05 = some 0xF00 := by
  exact ⟨rfl, by decide⟩
theorem witness_ReachableStatesAreCanonical :
    Reachable 1 { core 0xFF 0 [(0xFF, 0xB00)] with pc := 0, trace := [0xB00] } :=
  .step (.load { pc := 0xFF, acc := 0, cells := [(0xFF, 0xB00)] }) rfl
/-- For HaltedRunIsFixed and the first case of DriverStopsAfterFirstHalt. -/
theorem witness_HaltedRunIsFixed : (core 0xFF 1 [(0xFF, 0xFAB)]).loaded = true ∧ halted (core 0xFF 1 [(0xFF, 0xFAB)]) := by
  exact ⟨rfl, by unfold halted; decide⟩
/-- For EndOfRunIsFirstHaltedState: an end after one step and an end at once, each within its bound. -/
theorem witness_EndOfRunIsFirstHaltedState :
    RunEnds 1 (core 0 0 [(0, 0xAFF), (0xFF, 0xF00)]) { core 0xFF 0 [(0, 0xAFF), (0xFF, 0xF00)] with trace := [0xAFF] } ∧
    RunEnds 0 (core 0xFF 0 [(0xFF, 0xF00)]) (core 0xFF 0 [(0xFF, 0xF00)]) := by
  refine ⟨⟨rfl, by decide, fun k u hk hu => ?_⟩, rfl, by decide, fun k _ hk => absurd hk (Nat.not_lt_zero k)⟩
  obtain rfl : k = 0 := by omega
  injection hu with hu
  subst hu
  decide
/-- For SelfLoopsAreNoEnd: the three self-loops, and a run that never ends. -/
theorem witness_SelfLoopsAreNoEnd :
    decode (core 0xFF 5 [(0xFF, 0xAFF)]).fetch = .jmp 0xFF ∧ decode (core 0x10 0 [(0x10, 0x810)]).fetch = .jz 0x10 ∧
    decode (core 0 0x800 [(0, 0x900)]).fetch = .jn 0 ∧ (0x800#12).getLsbD 11 = true := by decide
theorem witness_SelfLoopsAreNoEnd_no_end : RunNeverEnds (core 4 0 [(4, 0xA04)]) := by
  have h : ∀ n tr t, runSteps n { pc := 4, acc := 0, mem := [(4, 0xA04)], trace := tr, loaded := true } = .next t →
      ¬halted t := by
    intro n
    induction n with
    | zero =>
      intro tr t ht
      injection ht with ht
      subst ht
      show ¬opcodeOf (Memory.read [(4, 0xA04)] 4) = 0xF
      decide
    | succ n ih =>
      intro tr t ht
      have hs : step { pc := 4, acc := 0, mem := [(4, 0xA04)], trace := tr, loaded := true } =
          .next { pc := 4, acc := 0, mem := [(4, 0xA04)], trace := tr ++ [0xA04], loaded := true } := by
        have hf : Memory.read [(4, 0xA04)] 4 = 0xA04#12 := by decide
        have hd : decode 0xA04#12 = .jmp 4 := by decide
        rw [step_loaded rfl, State.fetch, State.readMem, hf, hd, exec_jmp, retire_next]
        rfl
      exact ih (tr ++ [0xA04]) t (by rwa [runSteps_succ n hs] at ht)
  exact fun n t ht => h n [] t ht
/-- For RunsOfLoadedCoreNeverStop, StepRefinesPseudocode, DatapathRefinesStep and the second case of
DriverStopsAfterFirstHalt. -/
theorem witness_running_core : (core 0 0 []).loaded = true ∧ ¬halted (core 0 0 []) := by
  exact ⟨rfl, by unfold halted; decide⟩
theorem witness_LoadAppliesDescription :
    parseDescription Config.acceptLowerHex "00000000 000000000001\n10 000000000001\n10 000000000011".toList =
      some { pc := 0, acc := 1, cells := [(0x10, 1), (0x10, 3)] } ∧
    ([(0x10, 1), (0x10, 3)] : List (Addr × Word)) = [(0x10, 1)] ++ (0x10, 3) :: [] ∧
    (∀ e ∈ ([(0x10, 1), (0x10, 3)] : List (Addr × Word)), e.1 ≠ 0x11) :=
  ⟨by decide, rfl, by simp⟩
/-- A comment line and a blank line before the token; the three things that may follow it. -/
theorem witness_OneTokenHeaderFails :
    (∀ l ∈ (["# c".toList, []] : List Text), (l = [] ∨ l.head? = some '#') ∧ ∀ c ∈ l, c ≠ '\n') ∧
    ['0', '1'] ≠ [] ∧ (∀ c ∈ ['0', '1'], c ≠ ' ' ∧ c ≠ '\n' ∧ c ≠ '#') ∧
    "\n10 000000000001".toList.head? = some '\n' ∧ "# c".toList.head? = some '#' :=
  ⟨by simp, by simp, by simp, rfl, rfl⟩
/-- A comment with a tab, between a header line and a memory line, on a text that loads; and both at an edge. -/
theorem witness_CommentsAreDiscarded :
    (∀ c ∈ "a\t#\x7f".toList, c.toNat ≤ 127 ∧ c ≠ '\n' ∧ c ≠ '\r') ∧
    (∀ c ∈ "10 000000000001".toList, c ≠ '\n' ∧ c ≠ '#') ∧
    "00000000 000000000000\n".toList.getLast? = some '\n' ∧ "\n11 000000000001".toList.head? = some '\n' ∧
    (loadFile (some ("00000000 000000000000\n".toList ++ "10 000000000001".toList ++ "\n11 000000000001".toList))
      State.reset).1 = true :=
  ⟨by simp, by simp, rfl, rfl, by decide⟩
theorem witness_FailedLoadLeavesNoStep :
    State.constructed.loaded = false ∧ loadFile none State.reset = (false, State.reset.afterFailedLoad none) ∧
      (loadFile (some "00000000".toList) State.reset).1 = false ∧
      (loadFile (some "00000000 000000000000".toList) State.constructed).1 = true := by
  exact ⟨rfl, rfl, by decide, by decide⟩
theorem witness_SnapshotRoundTrip : (core 0xFF 0xABC [(0x00, 1), (0xFF, 0xFFF), (0x80, 0)]).canonical := rfl

end Sys2Proof.Tests
end

