-- ==== Sys2Proof/Proofs/StoreSeenByFetch.lean ====
section
/-!
PROOFS. What a step does to one cell, in terms of the arbiter's written cells, and what a run of steps that do not
write the cell keeps (20_memory.md R42).
-/

namespace Sys2Proof.Machine

/-! ### The accesses of phase 4 do not depend on PC -/

theorem execAccesses_advancePc (i : Instr) (s : State) : execAccesses i s.advancePc = execAccesses i s := by
  cases i <;> rfl

/-- The fetch writes nothing, so a step writes what its phase 4 writes on the advanced state. -/
theorem writtenCells_eq_exec (s : State) :
    writtenCells s = (execAccesses (decode s.fetch) s.advancePc).filterMap Access.writeAddr := by
  rw [execAccesses_advancePc]
  rfl

/-! ### One cell after phase 4, after a step and after a run -/

/-- Phase 4 puts ACC into the cells of its write accesses and leaves every other cell as it was. -/
theorem exec_readMem {i : Instr} {s u : State} (h : exec i s = .next u) (b : Addr) :
    u.readMem b = if b ∈ (execAccesses i s).filterMap Access.writeAddr then s.acc else s.readMem b := by
  cases i <;> injection h with h <;> subst h
  case store a => simp [execAccesses, Access.writeAddr, directAddr, @eq_comm _ b]
  case storei a => simp [execAccesses, Access.writeAddr, @eq_comm _ b]
  case jz a => simp [execAccesses, State.readMem]
  case jn a => simp [execAccesses, State.readMem]
  all_goals rfl

/-- A step puts the ACC it started with into its written cells and leaves every other cell as it was. -/
theorem step_readMem {s t : State} (h : step s = .next t) (b : Addr) :
    t.readMem b = if b ∈ writtenCells s then s.acc else s.readMem b := by
  obtain ⟨-, u, hu, rfl⟩ := step_eq_next h
  rw [writtenCells_eq_exec]
  exact exec_readMem hu b

/-- The step's output is the word it fetched, also when the step writes the cell it fetched from. -/
theorem step_irOut {s t : State} (h : step s = .next t) : t.irOut = some s.fetch := by
  obtain ⟨-, u, -, rfl⟩ := step_eq_next h
  simp [State.irOut, State.record]

/-- A run none of whose steps writes the cell `x` leaves `x` as it was. -/
theorem runSteps_readMem_unwritten {n : Nat} {s u : State} {x : Addr} (h : runSteps n s = .next u)
    (hx : ∀ k v, k < n → runSteps k s = .next v → x ∉ writtenCells v) : u.readMem x = s.readMem x := by
  induction n generalizing s with
  | zero =>
    injection h with h
    rw [h]
  | succ n ih =>
    obtain ⟨t, hs, ht⟩ := runSteps_succ_eq_next h
    have hfirst : x ∉ writtenCells s := hx 0 s n.succ_pos (runSteps_zero s)
    have hrest : u.readMem x = t.readMem x := ih ht fun k v hk hv =>
      hx (k + 1) v (Nat.succ_lt_succ hk) ((runSteps_succ k hs).trans hv)
    rw [hrest, step_readMem hs, if_neg hfirst]

/-- Settles O26: the storing step puts ACC into `x`, and the run after it, which never writes `x`, keeps it there. -/
theorem storedWordIsSeenByLaterFetches : Obligations.StoredWordIsSeenByLaterFetches := by
  intro s t u x n hs hx hrun hunwritten
  have hstored : t.readMem x = s.acc := by rw [step_readMem hs, if_pos hx]
  have hkept : u.readMem x = s.acc := (runSteps_readMem_unwritten hrun hunwritten).trans hstored
  refine ⟨step_irOut hs, hkept, ?_⟩
  rintro rfl
  exact hkept

end Sys2Proof.Machine
end

