-- ==== Sys2Proof/Proofs/Encoding.lean ====
section
/-!
PROOFS. A word as opcode times 256 plus operand, the mask of the opcode field, and that the row of a word depends on
its opcode field alone (30_encoding.md R50, R54, R55).
-/

namespace Sys2Proof.Machine

/-! ### The two fields as numbers and under the mask -/

theorem opcode_append_operand_toNat (op : OpNibble) (a : Addr) : (op ++ a : Word).toNat = op.toNat * 256 + a.toNat := by
  show (op ++ a : BitVec (4 + 8)).toNat = op.toNat * 2 ^ 8 + a.toNat
  rw [BitVec.toNat_append, ← Nat.shiftLeft_add_eq_or_of_lt a.isLt, Nat.shiftLeft_eq]

/-- The mask of R55 is all ones over the opcode field and zero over the operand field. -/
theorem append_and_opcodeMask (op : OpNibble) (a : Addr) : (op ++ a : Word) &&& 0xF00#12 = op ++ 0x00#8 := by
  have hmask : 0xF00#12 = BitVec.allOnes 4 ++ 0x00#8 := rfl
  rw [hmask, BitVec.and_append, BitVec.and_allOnes, BitVec.and_zero]

theorem and_opcodeMask_toNat (w : Word) : (w &&& 0xF00#12).toNat = (opcodeOf w).toNat * 256 := by
  calc (w &&& 0xF00#12).toNat
      = ((opcodeOf w ++ operandOf w : Word) &&& 0xF00#12).toNat := by rw [opcodeOf_append_operandOf]
    _ = (opcodeOf w ++ 0x00#8 : Word).toNat := by rw [append_and_opcodeMask]
    _ = (opcodeOf w).toNat * 256 := by rw [opcode_append_operand_toNat, BitVec.toNat_zero, Nat.add_zero]

/-! ### The row a word decodes to -/

/-- No operand bit is read by the mnemonic column. -/
theorem decodeRow_mnemonic_eq (op : OpNibble) (a b : Addr) :
    (decodeRow op a).mnemonic = (decodeRow op b).mnemonic := by
  unfold decodeRow
  split <;> rfl

theorem decode_mnemonic_eq_of_opcodeOf_eq {v w : Word} (h : opcodeOf v = opcodeOf w) :
    (decode v).mnemonic = (decode w).mnemonic := by
  rw [decode, decode, h]
  exact decodeRow_mnemonic_eq _ _ _

theorem decodeTableWord_eq_some {n : Nat} (h : n < 4096) :
    decodeTableWord 12 n = some (decode (BitVec.ofNat 12 n)) := by
  have hnumber : tableWordNumber 12 n = n := Nat.mod_eq_of_lt h
  have hrange : wordInRange n = true := decide_eq_true h
  rw [decodeTableWord, hnumber, if_pos hrange]

/-- Settles O3: the opcode and the mnemonic of a decoded word are read from its opcode field, which is what the mask
0xF00 keeps, and every number of 12 bits is decoded. -/
theorem decodingDependsOnOpcodeBitsOnly : Obligations.DecodingDependsOnOpcodeBitsOnly := by
  refine ⟨fun v w h => ⟨?opcode, decode_mnemonic_eq_of_opcodeOf_eq h⟩, fun w => ?mask,
    fun n h => ⟨_, decodeTableWord_eq_some h⟩⟩
  case opcode => rw [decode_opcode, decode_opcode, h]
  case mask => rw [decode_opcode, and_opcodeMask_toNat]

/-- Settles O1: the word of an opcode and an operand decodes to the row of that opcode, and each of the sixteen rows
is then read off the table. -/
theorem tableRowsDecodeToTheirInstructions : Obligations.TableRowsDecodeToTheirInstructions := by
  intro a
  simp only [decode_append]
  refine ⟨?rowsLow, ?rowsHigh, fun op => ?fields, ?mnemonicsLow, ?mnemonicsHigh⟩
  case fields => exact ⟨opcode_append_operand_toNat op a, opcodeOf_append op a, operandOf_append op a⟩
  case rowsLow => exact ⟨rfl, rfl, rfl, rfl, rfl, rfl, rfl, rfl⟩
  case rowsHigh => exact ⟨rfl, rfl, rfl, rfl, rfl, rfl, rfl, rfl⟩
  case mnemonicsLow => rfl
  case mnemonicsHigh => rfl

end Sys2Proof.Machine
end

