-- ==== Sys2Proof/Proofs/StepCycle.lean ====
section
/-!
PROOFS. The phases of one step (40_step_cycle.md): that a loaded core always steps, what the step records, that the
Trace has no influence on it, the accumulator's condition logic and the address adder.
-/

namespace Sys2Proof.Machine

open Host

/-! ### A loaded core steps, and records the word it fetched (R76, R78) -/

/-- Totality of the step: phase 4 always answers, and leaves the loaded mark alone. -/
theorem step_total {s : State} (h : s.loaded = true) : ∃ t, step s = .next t ∧ t.loaded = true := by
  obtain ⟨u, hu, -, hloaded⟩ := exec_next (decode s.fetch) s.advancePc
  refine ⟨u.record s.fetch, ?_, ?_⟩
  · rw [step_loaded h, hu, retire_next]
  · rw [State.record_loaded, hloaded, State.advancePc_loaded, h]

theorem exec_trace {i : Instr} {s t : State} (h : exec i s = .next t) : t.trace = s.trace := by
  obtain ⟨u, hu, htrace, -⟩ := exec_next i s
  obtain rfl : u = t := by rw [hu] at h; injection h
  exact htrace

theorem step_trace {s t : State} (h : step s = .next t) : t.trace = s.trace ++ [s.fetch] := by
  obtain ⟨-, u, hu, rfl⟩ := step_eq_next h
  rw [State.record_trace, exec_trace hu, State.advancePc_trace]

/-! ### The Trace has no influence on a step (R78) -/

theorem branchIf_withTrace (c : Bool) (a : Addr) (s : State) (l : List Word) :
    branchIf c a { s with trace := l } = { branchIf c a s with trace := l } := by
  cases c <;> rfl

/-- Phase 4 carries whatever Trace it is given and does the same to everything else. -/
theorem exec_withTrace {i : Instr} {s t : State} (l : List Word) (h : exec i s = .next t) :
    exec i { s with trace := l } = .next { t with trace := l } := by
  cases i <;> injection h with h <;> subst h
  case jz a => exact congrArg Outcome.next (branchIf_withTrace _ _ _ _)
  case jn a => exact congrArg Outcome.next (branchIf_withTrace _ _ _ _)
  all_goals rfl

/-- Two cores that differ in the Trace alone step to cores that differ in the Trace alone. -/
theorem step_withTrace {s t : State} (l : List Word) (h : step s = .next t) :
    step { s with trace := l } = .next { t with trace := l ++ [s.fetch] } := by
  obtain ⟨hloaded, u, hu, rfl⟩ := step_eq_next h
  have hexec : exec (decode s.fetch) { s.advancePc with trace := l } = .next { u with trace := l } :=
    exec_withTrace l hu
  calc step { s with trace := l }
      = retire s.fetch (exec (decode s.fetch) { s.advancePc with trace := l }) := step_loaded hloaded
    _ = .next (({ u with trace := l } : State).record s.fetch) := by rw [hexec, retire_next]

/-- Settles O6: a loaded core always steps (`step_total`); and two loaded cores that agree on PC, ACC and MEM differ
in the Trace alone, which has no influence (`step_withTrace`). -/
theorem stepIsTotalAndDeterministic : Obligations.StepIsTotalAndDeterministic := by
  refine ⟨fun s hloaded => ?total, fun s u t hs hu hpc hacc hmem h => ?deterministic⟩
  case total =>
    obtain ⟨t, ht, htloaded⟩ := step_total hloaded
    refine ⟨t, ht, htloaded, fun u hu => ?_, Nat.le_of_lt_succ t.pc.isLt, Nat.le_of_lt_succ t.acc.isLt,
      fun a => Nat.le_of_lt_succ (t.readMem a).isLt⟩
    rw [ht] at hu
    injection hu with hu
    exact hu.symm
  case deterministic =>
    have heq : u = { s with trace := u.trace } := by rw [hpc, hacc, hmem, hs, ← hu]
    have hstep : step u = .next { t with trace := u.trace ++ [s.fetch] } := by
      rw [heq]
      exact step_withTrace u.trace h
    have hfetch : u.fetch = s.fetch := by rw [heq]; rfl
    exact ⟨_, hstep, rfl, rfl, rfl, by rw [step_irOut hstep, step_irOut h, hfetch]⟩

/-- Settles O27: the Trace grows by the fetched word (`step_trace`), which is the output (`step_irOut`); the texts are
read off these two, and another Trace changes nothing else (`step_withTrace`). -/
theorem traceRecordsFetchedWord : Obligations.TraceRecordsFetchedWord := by
  intro s t h
  have htrace : t.trace = s.trace ++ [s.readMem s.pc] := step_trace h
  have hout : t.irOut = some (s.readMem s.pc) := step_irOut h
  refine ⟨htrace, hout, ?result, ?lines, fun l => ⟨_, step_withTrace l h, rfl, rfl, rfl⟩⟩
  case result => rw [stepResult, hout, Option.map_some]
  case lines => rw [traceLines, htrace, List.map_append]; rfl

/-- Settles O5: the state phase 4 runs on is the one with PC advanced, and retiring its outcome adds the record. -/
theorem stepRunsDecodedInstruction : Obligations.StepRunsDecodedInstruction := by
  rintro s i hloaded rfl -
  rw [step_loaded hloaded]
  change retire s.fetch (exec (decode s.fetch) s.advancePc) = match exec (decode s.fetch) s.advancePc with
    | .next t => .next (t.record s.fetch)
    | .fault f => .fault f
    | .refused r => .refused r
  cases exec (decode s.fetch) s.advancePc with
  | next t => exact retire_next s.fetch t
  | fault f => rfl
  | refused r => rfl

/-! ### The condition logic (R85) -/

theorem isZero_iff_eq_zero (v : Word) : isZero v = true ↔ v = 0 := decide_eq_true_iff

theorem isZero_iff_bits (v : Word) : isZero v = true ↔ ∀ i, i < 12 → v.getLsbD i = false := by
  rw [isZero_iff_eq_zero]
  constructor
  · rintro rfl i -
    exact BitVec.getLsbD_zero
  · intro h
    exact BitVec.eq_of_getLsbD_eq fun i hi => (h i hi).trans BitVec.getLsbD_zero.symm

/-- Bit 11 has weight 0x800, half the range of a word. -/
theorem signBit_iff_le_toNat (v : Word) : v.getLsbD 11 = true ↔ 0x800 ≤ v.toNat := by
  have hmsb : v.getLsbD 11 = decide (0x800 ≤ v.toNat) := BitVec.msb_eq_decide v
  rw [hmsb, decide_eq_true_iff]

/-- The signed reading subtracts 4096 exactly when bit 11 is set, which takes every such word below 0. -/
theorem sext12_neg_iff_signBit (v : Word) : sext12 v < 0 ↔ v.getLsbD 11 = true := by
  have hlt : v.toNat < 4096 := v.isLt
  cases hbit : v.getLsbD 11 with
  | true => simp only [sext12, hbit, if_true, iff_true]; omega
  | false => simp only [sext12, hbit, Bool.false_eq_true, if_false, iff_false]; omega

theorem isNegative_iff_sext12_neg (v : Word) : isNegative v = true ↔ sext12 v < 0 := decide_eq_true_iff

theorem isNegative_iff_signBit (v : Word) : isNegative v = true ↔ v.getLsbD 11 = true :=
  (isNegative_iff_sext12_neg v).trans (sext12_neg_iff_signBit v)

theorem not_isZero_and_isNegative (v : Word) : ¬(isZero v = true ∧ isNegative v = true) := by
  rintro ⟨hzero, hneg⟩
  have hclear : v.getLsbD 11 = false := (isZero_iff_bits v).mp hzero 11 (by decide)
  have hset : v.getLsbD 11 = true := (isNegative_iff_signBit v).mp hneg
  rw [hclear] at hset
  cases hset

/-- A branch changes PC alone, taken or not. -/
theorem branchIf_eq (c : Bool) (a : Addr) (s : State) : branchIf c a s = { s with pc := if c then a else s.pc } := by
  cases c <;> rfl

/-- Settles O33: `isZero` reads all 12 bits and `isNegative` bit 11, and JZ and JN branch on them. -/
theorem conditionLogic : Obligations.ConditionLogic := by
  refine ⟨fun v => ⟨isZero_iff_bits v, isNegative_iff_signBit v, isNegative_iff_sext12_neg v, ?range,
    not_isZero_and_isNegative v⟩, fun s a => ⟨?jz, ?jn⟩⟩
  case range =>
    have hle : v.toNat ≤ 0xFFF := Nat.le_of_lt_succ v.isLt
    rw [isNegative_iff_signBit, signBit_iff_le_toNat, and_iff_left hle]
  case jz => rw [exec_jz, branchIf_eq]
  case jn => rw [exec_jn, branchIf_eq]

/-! ### The address adder (R83) -/

theorem addrDec_addrInc (x : Addr) : addrDec (addrInc x) = x := by
  rw [addrDec_eq, addrInc_eq, BitVec.add_sub_cancel]

/-- An indirect address is the pointer word modulo 256, not an output of the adder. -/
theorem indirectAddr_toNat (s : State) (a : Addr) : (indirectAddr s a).toNat = (s.readMem a).toNat % 256 := by
  rw [indirectAddr, pointerAddr_eq, BitVec.toNat_ofNat, Nat.mod_mod]

/-- Settles O29: the two functions of the adder undo each other and wrap at the ends, and a data address is the
operand or the pointer as read. -/
theorem addressAdderWraps : Obligations.AddressAdderWraps :=
  ⟨fun x => ⟨rfl, rfl, addrDec_addrInc x⟩, by decide, by decide, fun s a => ⟨rfl, indirectAddr_toNat s a⟩⟩

end Sys2Proof.Machine
end

