-- ==== Sys2Proof/Proofs/Arithmetic.lean ====
section
/-!
PROOFS. A step whose fetched word is written as opcode and operand (40_step_cycle.md R71 to R77), and the two
arithmetic instructions, whose exact result is narrowed to 12 bits (41_arithmetic.md).
-/

namespace Sys2Proof.Machine

/-! ### The step of a core whose word at PC is given by its two fields -/

/-- The arbiter's list is the fetch and the accesses of the row of R54 the word is in. -/
theorem accesses_of_fetch {s : State} {op : OpNibble} {a : Addr} (hword : s.mem.read s.pc = op ++ a) :
    accesses s = .read s.pc :: execAccesses (decodeRow op a) s := by
  have hfetch : s.fetch = op ++ a := hword
  rw [accesses, hfetch, decode_append]

/-- The step records the word after what phase 4 of its row of R54 did to the advanced state. -/
theorem step_of_fetch {s u : State} {op : OpNibble} {a : Addr} (hloaded : s.loaded = true)
    (hword : s.mem.read s.pc = op ++ a) (hexec : exec (decodeRow op a) s.advancePc = .next u) :
    step s = .next (u.record (op ++ a)) := by
  have hfetch : s.fetch = op ++ a := hword
  rw [step_loaded hloaded, hfetch, decode_append, hexec, retire_next]

/-! ### SUB and ADD (R90, R91) -/

/-- Settles O7: phase 4 sets ACC to the ALU's difference (`exec_sub`), and the step adds the phases around it. -/
theorem subSubtractsOperandCell : Obligations.SubSubtractsOperandCell := fun s a =>
  ⟨exec_sub a s, fun hloaded hword =>
    ⟨accesses_of_fetch hword, step_of_fetch hloaded hword (exec_sub a s.advancePc)⟩⟩

/-- Settles O8: phase 4 sets ACC to the ALU's sum (`exec_add`), and the step adds the phases around it. -/
theorem addAddsOperandCell : Obligations.AddAddsOperandCell := fun s a =>
  ⟨exec_add a s, fun hloaded hword =>
    ⟨accesses_of_fetch hword, step_of_fetch hloaded hword (exec_add a s.advancePc)⟩⟩

/-! ### The exact result modulo 4096 (R92) -/

/-- Narrowing keeps the remainder, in 0..4095 for a negative number too. -/
theorem trunc12_toNat (n : Int) : ((trunc12 n).toNat : Int) = n % 4096 := by
  rw [trunc12, BitVec.toNat_ofInt]
  exact Int.toNat_of_nonneg (Int.emod_nonneg n (by decide))

theorem aluAdd_toNat (x y : Word) : (aluAdd x y).toNat = (x.toNat + y.toNat) % 4096 := by
  rw [aluAdd_eq, BitVec.toNat_add]

theorem aluSub_toNat (x y : Word) : ((aluSub x y).toNat : Int) = ((x.toNat : Int) - y.toNat) % 4096 :=
  trunc12_toNat _

/-- Settles O30: both instructions set ACC alone, to the ALU's result, which is the remainder. -/
theorem arithmeticIsModulo4096 : Obligations.ArithmeticIsModulo4096 := by
  refine fun s a => ⟨⟨_, exec_add a s, rfl, ?add, Nat.le_of_lt_succ (BitVec.isLt _)⟩,
    ⟨_, exec_sub a s, rfl, ?sub, Nat.le_of_lt_succ (BitVec.isLt _)⟩⟩
  case add => exact aluAdd_toNat s.acc (s.readMem a)
  case sub => exact aluSub_toNat s.acc (s.readMem a)

end Sys2Proof.Machine
end

