-- ==== Sys2Proof/Proofs/LoadStore.lean ====
section
/-!
PROOFS. The four copies between ACC and a memory cell, direct and through a pointer (42_load_store.md R100 to R103).
Each is its meaning at phase 4, and the step of a core that fetched its word.
-/

namespace Sys2Proof.Machine

/-! ### LOAD and STORE, direct (R100, R101) -/

/-- Settles O9: phase 4 sets ACC to the operand cell (`exec_load`), and the step adds the phases around it. -/
theorem loadCopiesOperandCell : Obligations.LoadCopiesOperandCell := fun s a =>
  ⟨exec_load a s, fun hloaded hword =>
    ⟨accesses_of_fetch hword, step_of_fetch hloaded hword (exec_load a s.advancePc)⟩⟩

/-- Settles O10: phase 4 writes ACC to the operand cell (`exec_store`), the other cells follow from read after write,
and the step adds the phases around it. -/
theorem storeWritesOperandCell : Obligations.StoreWritesOperandCell := fun s a =>
  ⟨exec_store a s, fun b => Memory.read_write s.mem a b s.acc, fun hloaded hword =>
    ⟨accesses_of_fetch hword, step_of_fetch hloaded hword (exec_store a s.advancePc)⟩⟩

/-! ### LOADI and STOREI, through the pointer in the operand cell (R102, R103) -/

/-- The effective address is the pointer word modulo 256, whatever its high bits (R104, 30 R53). -/
theorem indirectAddr_eq (s : State) (a : Addr) :
    indirectAddr s a = BitVec.ofNat 8 ((s.mem.read a).toNat % 256) := pointerAddr_eq (s.mem.read a)

/-- Advancing PC leaves the pointer cell alone, so phase 4 uses the address read before the step. -/
theorem indirectAddr_advancePc (s : State) (a : Addr) : indirectAddr s.advancePc a = indirectAddr s a := rfl

/-- Settles O11: the pointed cell is the indirect address, from which phase 4 sets ACC (`exec_loadi`). -/
theorem loadiCopiesPointedCell : Obligations.LoadiCopiesPointedCell := by
  intro s a p hp
  obtain rfl : p = indirectAddr s a := hp.trans (indirectAddr_eq s a).symm
  refine ⟨exec_loadi a s, fun hloaded hword => ⟨accesses_of_fetch hword, ?step⟩⟩
  case step =>
    rw [← indirectAddr_advancePc]
    exact step_of_fetch hloaded hword (exec_loadi a s.advancePc)

/-- Settles O12: the pointed cell is the indirect address before the write, to which phase 4 writes ACC
(`exec_storei`); the other cells follow from read after write. -/
theorem storeiWritesPointedCell : Obligations.StoreiWritesPointedCell := by
  intro s a p hp
  obtain rfl : p = indirectAddr s a := hp.trans (indirectAddr_eq s a).symm
  refine ⟨exec_storei a s, fun b => Memory.read_write s.mem _ b s.acc, fun hloaded hword =>
    ⟨accesses_of_fetch hword, ?step⟩⟩
  case step =>
    rw [← indirectAddr_advancePc]
    exact step_of_fetch hloaded hword (exec_storei a s.advancePc)

end Sys2Proof.Machine
end

