-- ==== Sys2Proof/Proofs/ControlTransfer.lean ====
section
/-!
PROOFS. The two conditional branches, the jump and HALT (43_control_transfer.md R110 to R113). Each is its meaning at
phase 4, and the step of a core that fetched its word.
-/

namespace Sys2Proof.Machine

/-! ### JZ, JN and JMP: PC takes the operand when the condition holds (R110 to R112) -/

/-- `branchIf_eq`, with the condition read as the proposition its Boolean decides. -/
theorem branchIf_eq_of_iff {c : Bool} {p : Prop} [Decidable p] (h : c = true ↔ p) (a : Addr) (s : State) :
    branchIf c a s = { s with pc := if p then a else s.pc } := by
  rw [branchIf_eq, if_congr h rfl rfl]

theorem isZero_iff_toNat_eq_zero (v : Word) : isZero v = true ↔ v.toNat = 0 :=
  (isZero_iff_eq_zero v).trans BitVec.toNat_inj.symm

theorem exec_jz_eq (a : Addr) (s : State) :
    exec (.jz a) s = .next { s with pc := if s.acc.toNat = 0 then a else s.pc } := by
  rw [exec_jz, branchIf_eq_of_iff (isZero_iff_toNat_eq_zero s.acc)]

theorem exec_jn_eq (a : Addr) (s : State) :
    exec (.jn a) s = .next { s with pc := if sext12 s.acc < 0 then a else s.pc } := by
  rw [exec_jn, branchIf_eq_of_iff (isNegative_iff_sext12_neg s.acc)]

/-- Settles O13: phase 4 branches on ACC = 0 (`exec_jz_eq`), and in the step the PC it keeps otherwise is the advanced
one. -/
theorem jzBranchesOnZero : Obligations.JzBranchesOnZero := fun s a =>
  ⟨exec_jz_eq a s, fun hloaded hword =>
    ⟨accesses_of_fetch hword, step_of_fetch hloaded hword (exec_jz_eq a s.advancePc)⟩⟩

/-- Settles O14: phase 4 branches on the sign of ACC (`exec_jn_eq`), which is bit 11, of weight 0x800; in the step the
PC it keeps otherwise is the advanced one. -/
theorem jnBranchesOnNegative : Obligations.JnBranchesOnNegative := fun s a =>
  ⟨sext12_neg_iff_signBit s.acc, (sext12_neg_iff_signBit s.acc).trans (signBit_iff_le_toNat s.acc), exec_jn_eq a s,
    fun hloaded hword => ⟨accesses_of_fetch hword, step_of_fetch hloaded hword (exec_jn_eq a s.advancePc)⟩⟩

/-- Settles O15: phase 4 sets PC alone (`exec_jmp`), over the advanced PC, and the step adds the record. -/
theorem jmpBranchesAlways : Obligations.JmpBranchesAlways := fun s a =>
  ⟨exec_jmp a s, fun hloaded hword =>
    ⟨accesses_of_fetch hword, step_of_fetch hloaded hword (exec_jmp a s.advancePc)⟩⟩

/-! ### HALT: PC steps back onto the HALT (R113) -/

/-- The decrement of phase 4 undoes the advance of phase 2, so HALT leaves the whole state as it was fetched from. -/
theorem exec_halt_advancePc (a : Addr) (s : State) : exec (.halt a) s.advancePc = .next s := by
  rw [exec_halt, State.advancePc_pc, addrDec_addrInc]
  rfl

/-- A whole step of HALT only records its word. -/
theorem step_halt {s : State} {a : Addr} (hloaded : s.loaded = true) (hword : s.mem.read s.pc = 0xF#4 ++ a) :
    step s = .next (s.record (0xF#4 ++ a)) :=
  step_of_fetch hloaded hword (exec_halt_advancePc a s)

/-- Settles O16: a step of HALT only records its word (`step_halt`), so the next one fetches the same word from the
same PC. -/
theorem haltRepointsAtItself : Obligations.HaltRepointsAtItself := by
  refine fun s a => ⟨exec_halt a s, fun hloaded hword => ⟨accesses_of_fetch hword, step_halt hloaded hword, ?again⟩⟩
  have hagain : step (s.record (0xF#4 ++ a)) = .next ((s.record (0xF#4 ++ a)).record (0xF#4 ++ a)) :=
    step_halt hloaded hword
  rwa [State.record, State.record, List.append_assoc] at hagain

end Sys2Proof.Machine
end

