-- ==== Sys2Proof/Proofs/UndefinedOpcodes.lean ====
section
/-!
PROOFS. The six undefined opcodes (44_undefined_opcodes.md R120 to R125). Phase 4 of each does nothing, so the step of
a core that fetched one is the advance of PC and the record.
-/

namespace Sys2Proof.Machine

/-- The six undefined opcodes. -/
def undefinedOpcodes : List OpNibble := [0x0#4, 0x1#4, 0xB#4, 0xC#4, 0xD#4, 0xE#4]

/-- The six instructions without a meaning, on one operand. -/
def undefinedInstrs (a : Addr) : List Instr := [.op0 a, .op1 a, .opb a, .opc a, .opd a, .ope a]

theorem map_decodeRow_undefinedOpcodes (a : Addr) :
    undefinedOpcodes.map (decodeRow · a) = undefinedInstrs a := rfl

theorem decodeRow_mem_undefinedInstrs {op : OpNibble} (a : Addr) (hop : op ∈ undefinedOpcodes) :
    decodeRow op a ∈ undefinedInstrs a := by
  rw [← map_decodeRow_undefinedOpcodes]
  exact List.mem_map_of_mem hop

theorem exec_of_mem_undefinedInstrs {i : Instr} {a : Addr} (s : State) (hi : i ∈ undefinedInstrs a) :
    exec i s = .next s := by
  simp only [undefinedInstrs, List.mem_cons, List.not_mem_nil, or_false] at hi
  obtain rfl | rfl | rfl | rfl | rfl | rfl := hi
  · exact exec_op0 a s
  · exact exec_op1 a s
  · exact exec_opb a s
  · exact exec_opc a s
  · exact exec_opd a s
  · exact exec_ope a s

theorem execAccesses_of_mem_undefinedInstrs {i : Instr} {a : Addr} (s : State) (hi : i ∈ undefinedInstrs a) :
    execAccesses i s = [] := by
  simp only [undefinedInstrs, List.mem_cons, List.not_mem_nil, or_false] at hi
  obtain rfl | rfl | rfl | rfl | rfl | rfl := hi <;> rfl

/-- Settles O17: phase 4 answers the state it is given (`exec_of_mem_undefinedInstrs`) and makes no access, so the
step is the advance of PC and the record. -/
theorem undefinedOpcodesOnlyAdvance : Obligations.UndefinedOpcodesOnlyAdvance := by
  refine ⟨fun s a => ⟨exec_op0 a s, exec_op1 a s, exec_opb a s, exec_opc a s, exec_opd a s, exec_ope a s⟩,
    fun s a op hop hloaded hword => ?fetched⟩
  have hrow : decodeRow op a ∈ undefinedInstrs a := decodeRow_mem_undefinedInstrs a hop
  refine ⟨?accesses, ?step⟩
  case accesses => rw [accesses_of_fetch hword, execAccesses_of_mem_undefinedInstrs s hrow]
  case step => exact step_of_fetch hloaded hword (exec_of_mem_undefinedInstrs s.advancePc hrow)

end Sys2Proof.Machine
end

