-- ==== Sys2Proof/Proofs/HostInterface.lean ====
section
/-!
PROOFS. The successful Load as a reset event and the read-outs as text (45_host_interface.md R132, R133, R139, R140).
-/

namespace Sys2Proof.Machine

/-! ### The word a list of assignments gives an address (R133) -/

theorem lastAssigned_append (a : Addr) (w : Word) (cs ds : List (Addr × Word)) :
    lastAssigned a w (cs ++ ds) = lastAssigned a (lastAssigned a w cs) ds := by
  induction cs generalizing w with
  | nil => rfl
  | cons e cs ih => exact ih _

theorem lastAssigned_of_unnamed {a : Addr} {cs : List (Addr × Word)} (w : Word) (h : ∀ e ∈ cs, e.1 ≠ a) :
    lastAssigned a w cs = w := by
  induction cs with
  | nil => rfl
  | cons e cs ih =>
    obtain ⟨he, hcs⟩ := List.forall_mem_cons.mp h
    rw [lastAssigned, if_neg he, ih hcs]

/-- The last assignment of an address decides, whatever stands before it. -/
theorem lastAssigned_of_last {a : Addr} {after : List (Addr × Word)} (w v : Word) (before : List (Addr × Word))
    (h : ∀ e ∈ after, e.1 ≠ a) : lastAssigned a w (before ++ (a, v) :: after) = v := by
  rw [lastAssigned_append, lastAssigned, if_pos rfl, lastAssigned_of_unnamed v h]

/-! ### The state a successful Load leaves (R132) -/

/-- The assignments are applied to a memory of zeros, so each cell holds its word of MEM_INIT. -/
theorem State.ofDescription_readMem (d : Description) (a : Addr) : (State.ofDescription d).readMem a = d.memInit a :=
  applyCells_read a d.cells []

/-- Both memories are canonical and read alike, so the Load leaves the very state of the reset event (70 R170). -/
theorem State.ofDescription_eq_hostReset (d : Description) :
    State.ofDescription d = State.hostReset d.pc d.acc d.memInit := by
  have hmem : applyCells [] d.cells = Memory.ofFn d.memInit :=
    Memory.ext_of_wf (applyCells_wf d.cells [] rfl) (Memory.wf_ofFn d.memInit) fun a =>
      (State.ofDescription_readMem d a).trans (Memory.read_ofFn d.memInit a).symm
  rw [State.ofDescription, State.hostReset, hmem]

/-- The state before the Load does not occur in the result. -/
theorem loadFile_of_parseDescription {text : Text} {d : Description}
    (h : parseDescription Config.acceptLowerHex text = some d) (s : State) :
    loadFile (some text) s = (true, State.ofDescription d) := by
  rw [loadFile, h]

/-- Settles O42: the Load leaves `State.ofDescription`, whose cells are MEM_INIT, the last word assigned or 0. -/
theorem loadAppliesDescription : Obligations.LoadAppliesDescription := by
  intro text s d hparse
  refine ⟨State.ofDescription d, loadFile_of_parseDescription hparse s, rfl, rfl, rfl, rfl, ?named, ?unnamed,
    loadFile_of_parseDescription hparse, State.ofDescription_eq_hostReset d⟩
  case named =>
    intro a v before after hcells hafter
    rw [State.ofDescription_readMem, Description.memInit, hcells, lastAssigned_of_last 0 v before hafter]
  case unnamed =>
    intro a hcells
    rw [State.ofDescription_readMem, Description.memInit, lastAssigned_of_unnamed 0 hcells]

/-! ### The read-outs (R139, R140) -/

/-- Settles O46: the texts are those of the model's read-outs, and character `i` of a binary text is the bit
`binText_getElem?` gives, counted from the most significant. -/
theorem readOutTexts : Obligations.ReadOutTexts :=
  ⟨fun _ => ⟨rfl, rfl⟩,
    fun a => ⟨binText_length 8 a.toNat, fun i hi => binText_getElem? 8 a.toNat i hi⟩,
    fun w => ⟨binText_length 12 w.toNat, fun i hi => binText_getElem? 12 w.toNat i hi⟩⟩

end Sys2Proof.Machine
end

