-- ==== Sys2Proof/Proofs/DecodeEncode.lean ====
section
/-!
PROOFS. Decoder and encoder are inverse (30_encoding.md sections 1 and 3), and what follows for the record of a word,
which is its mnemonic and its operand digits (45_host_interface.md section 4).
-/

namespace Sys2Proof.Machine

/-! ### Decode and encode -/

/-- Each row of R54, read by the opcode and the operand of its own instruction, is that instruction. -/
theorem decodeRow_opcode_operand (i : Instr) : decodeRow i.opcode i.operand = i := by
  cases i <;> dsimp only [Instr.opcode, Instr.operand] <;> rfl

theorem decode_encode (i : Instr) : decode (encode i) = i := by
  rw [encode, decode_append, decodeRow_opcode_operand]

theorem encode_decode (w : Word) : encode (decode w) = w := by
  rw [encode, decode_opcode, decode_operand, opcodeOf_append_operandOf]

/-- Settles O4: an instruction is the row of its opcode and operand (`decode_encode`), and a word is its two fields
put together (`encode_decode`). -/
theorem decodeAndEncodeAreInverse : Obligations.DecodeAndEncodeAreInverse :=
  ⟨fun i _ => decode_encode i, encode_decode⟩

/-- Settles O2: each word is the encoding of the instruction printed beside it, so `decode_encode` reads it back. -/
theorem specWordsDecodeAsPrinted : Obligations.SpecWordsDecodeAsPrinted :=
  ⟨decode_encode (.sub 0x21#8), decode_encode (.add 0x11#8), decode_encode (.load 0x10#8),
    decode_encode (.store 0x12#8), decode_encode (.loadi 0x10#8), decode_encode (.storei 0x31#8),
    decode_encode (.jz 0x0A#8), decode_encode (.jn 0x05#8), decode_encode (.jmp 0x01#8),
    decode_encode (.halt 0xAB#8), decode_encode (.op0 0x00#8), decode_encode (.ope 0x0F#8)⟩

/-! ### The record of a word determines the word -/

/-- The sixteen mnemonics of R54 differ, on one operand. -/
theorem decodeRow_mnemonic_injective :
    ∀ op₁ op₂ : OpNibble, (decodeRow op₁ 0).mnemonic = (decodeRow op₂ 0).mnemonic → op₁ = op₂ := by
  decide

theorem opcodeOf_eq_of_mnemonic_eq {v w : Word} (h : (decode v).mnemonic = (decode w).mnemonic) :
    opcodeOf v = opcodeOf w := by
  apply decodeRow_mnemonic_injective
  rwa [decodeRow_mnemonic_eq _ 0 (operandOf v), decodeRow_mnemonic_eq _ 0 (operandOf w)]

/-- The two digits read back (`parseAddr_hex2`). -/
theorem hex2_injective {a b : Addr} (h : hex2 a = hex2 b) : a = b := by
  have hsome : some a = some b := by rw [← parseAddr_hex2 a, h, parseAddr_hex2]
  exact Option.some.inj hsome

theorem traceRecord_injective {v w : Word} (h : traceRecord v = traceRecord w) : v = w := by
  obtain ⟨hname, htail⟩ := List.append_inj' h rfl
  have hopcode : opcodeOf v = opcodeOf w := opcodeOf_eq_of_mnemonic_eq (String.toList_inj.mp hname)
  have hoperand : operandOf v = operandOf w := hex2_injective (List.tail_eq_of_cons_eq htail)
  rw [← opcodeOf_append_operandOf v, hopcode, hoperand, opcodeOf_append_operandOf]

/-- The final newline of the trace file is left open (93 U9), so it is there or it is not. -/
theorem finalNewline_cases (t : Text) (present : Bool) :
    t ++ finalNewline present = t ∨ t ++ finalNewline present = t ++ ['\n'] := by
  cases present
  · exact .inl (List.append_nil t)
  · exact .inr rfl

/-- Settles O28: a record is two digits after the mnemonic and a space, so it determines both fields of the word
(`traceRecord_injective`); the file's text is the records joined, up to its final newline. -/
theorem traceRecordTexts : Obligations.TraceRecordTexts := by
  refine ⟨by decide, by decide, by decide, by decide, by decide, by decide, fun w => ?length,
    fun _ _ => traceRecord_injective, fun s => ⟨rfl, rfl, finalNewline_cases _ _⟩⟩
  case length => exact List.length_append

end Sys2Proof.Machine
end

