-- ==== Sys2Proof/Proofs/Invariants.lean ====
section
/-!
PROOFS. What every step keeps: the canonical form of memory, the loaded mark and the length of the Trace; and the
states a run starts from, after a reset event or a step boundary (10_state.md section 1, 70_reset_and_hazards.md).
-/

namespace Sys2Proof.Machine

/-! ### One step -/

/-- Phase 4 leaves memory alone or writes one cell, and a write keeps the canonical form. -/
theorem exec_canonical {i : Instr} {s t : State} (h : exec i s = .next t) (hs : s.canonical) : t.canonical := by
  unfold State.canonical at hs ⊢
  obtain hmem | ⟨a, -, hmem⟩ | ⟨a, -, hmem⟩ := exec_mem_cases h
  · rwa [hmem]
  · rw [hmem]; exact Memory.wf_write a s.acc hs
  · rw [hmem]; exact Memory.wf_write (indirectAddr s a) s.acc hs

theorem step_canonical {s t : State} (h : step s = .next t) (hs : s.canonical) : t.canonical := by
  obtain ⟨-, u, hu, rfl⟩ := step_eq_next h
  show u.canonical
  exact exec_canonical hu hs

/-- Settles O34: phase 4 keeps the canonical form (`exec_canonical`), and no other phase touches memory. -/
theorem stepKeepsMemoryCanonical : Obligations.StepKeepsMemoryCanonical := fun _ _ hs h => step_canonical h hs

theorem step_keeps_loaded {s t : State} (h : step s = .next t) : t.loaded = true := by
  obtain ⟨u, hu, hloaded⟩ := step_total (step_eq_next h).1
  obtain rfl : u = t := by rw [hu] at h; injection h
  exact hloaded

theorem step_trace_length {s t : State} (h : step s = .next t) : t.trace.length = s.trace.length + 1 := by
  rw [step_trace h, List.length_append, List.length_singleton]

/-! ### Any number of steps -/

theorem runSteps_total {s : State} (n : Nat) (h : s.loaded = true) :
    ∃ t, runSteps n s = .next t ∧ t.loaded = true := by
  induction n generalizing s with
  | zero => exact ⟨s, runSteps_zero s, h⟩
  | succ n ih =>
    obtain ⟨u, hu, hloaded⟩ := step_total h
    rw [runSteps_succ n hu]
    exact ih hloaded

theorem runSteps_trace_length {n : Nat} {s t : State} (h : runSteps n s = .next t) :
    t.trace.length = s.trace.length + n := by
  induction n generalizing s with
  | zero => injection h with h; rw [h, Nat.add_zero]
  | succ n ih =>
    obtain ⟨u, hu, hrun⟩ := runSteps_succ_eq_next h
    rw [ih hrun, step_trace_length hu, Nat.add_right_comm, Nat.add_assoc]

theorem runSteps_trace_prefix {n : Nat} {s t : State} (h : runSteps n s = .next t) : s.trace <+: t.trace := by
  induction n generalizing s with
  | zero => injection h with h; rw [h]
  | succ n ih =>
    obtain ⟨u, hu, hrun⟩ := runSteps_succ_eq_next h
    have hfirst : s.trace <+: u.trace := by rw [step_trace hu]; exact List.prefix_append _ _
    exact hfirst.trans (ih hrun)

/-- Settles O37: a loaded core steps to a loaded core (`runSteps_total`), and each step appends one record. -/
theorem runsOfLoadedCoreNeverStop : Obligations.RunsOfLoadedCoreNeverStop := by
  intro n s hloaded
  obtain ⟨t, hrun, ht⟩ := runSteps_total n hloaded
  exact ⟨t, hrun, ht, runSteps_trace_length hrun, runSteps_trace_prefix hrun⟩

/-! ### The states a run starts from -/

theorem State.hostReset_canonical (p : Addr) (w : Word) (m : Addr → Word) : (State.hostReset p w m).canonical :=
  Memory.wf_ofFn m

theorem State.hostReset_readMem (p : Addr) (w : Word) (m : Addr → Word) (a : Addr) :
    (State.hostReset p w m).readMem a = m a := Memory.read_ofFn m a

/-- The state of a Load is that of a reset event. -/
theorem State.ofDescription_canonical (d : Description) : (State.ofDescription d).canonical := by
  rw [State.ofDescription_eq_hostReset]
  exact State.hostReset_canonical _ _ _

/-- Settles O36, by induction on how the state was reached: a reset event or a Load starts canonical with an empty
Trace, and a step keeps the form and appends one record. -/
theorem reachableStatesAreCanonical : Obligations.ReachableStatesAreCanonical := by
  intro n s h
  induction h with
  | reset p w m => exact ⟨State.hostReset_canonical p w m, rfl, rfl⟩
  | load d => exact ⟨State.ofDescription_canonical d, rfl, rfl⟩
  | step _ hstep ih =>
    obtain ⟨hcanonical, -, hlength⟩ := ih
    exact ⟨step_canonical hstep hcanonical, step_keeps_loaded hstep, by rw [step_trace_length hstep, hlength]⟩

/-- Settles O41: the fields are those of `State.hostReset`, its cells read as MEM_INIT, and its first step records
what it fetched at PC_INIT. -/
theorem resetEventSetsWholeState : Obligations.ResetEventSetsWholeState := by
  intro p w m
  have hfetch : (State.hostReset p w m).fetch = m p := State.hostReset_readMem p w m p
  obtain ⟨t, ht, -⟩ := step_total (State.hostReset_loaded p w m)
  refine ⟨rfl, rfl, rfl, State.hostReset_canonical p w m, State.hostReset_readMem p w m, hfetch, t, ht, ?_⟩
  rw [step_trace ht, hfetch, State.hostReset_trace, List.nil_append]

/-- Settles O48: a requested reset answers the state of the reset event, whose cells read as MEM_INIT, and without one
the step is served or not. -/
theorem resetHasPriorityOverStep : Obligations.ResetHasPriorityOverStep := fun _ p _ =>
  ⟨⟨_, rfl, rfl, rfl, rfl, State.hostReset_readMem p.pcInit p.accInit p.memInit⟩, rfl, rfl⟩

end Sys2Proof.Machine
end

