-- ==== Sys2Proof/Proofs/Frames.lean ====
section
/-!
PROOFS. What one instruction and one step leave unchanged (40_step_cycle.md section 5): the frame of each family at
phase 4, how a step leaves PC and ACC, and the order and reach of its memory accesses (20_memory.md section 8).
-/

namespace Sys2Proof.Machine

/-! ### The frame of each family at phase 4 -/

theorem exec_accumulatorWriter {i : Instr} {a : Addr} (s : State) (hi : i ∈ [Instr.sub a, .add a, .load a, .loadi a]) :
    ∃ w, exec i s = .next (s.setAcc w) := by
  simp only [List.mem_cons, List.not_mem_nil, or_false] at hi
  obtain rfl | rfl | rfl | rfl := hi
  · exact ⟨_, exec_sub a s⟩
  · exact ⟨_, exec_add a s⟩
  · exact ⟨_, exec_load a s⟩
  · exact ⟨_, exec_loadi a s⟩

theorem exec_transfer {i : Instr} {a : Addr} (s : State) (hi : i ∈ [Instr.jz a, .jn a, .jmp a, .halt a]) :
    ∃ p, exec i s = .next (s.setPc p) := by
  simp only [List.mem_cons, List.not_mem_nil, or_false] at hi
  obtain rfl | rfl | rfl | rfl := hi
  · exact ⟨_, exec_jz_eq a s⟩
  · exact ⟨_, exec_jn_eq a s⟩
  · exact ⟨_, exec_jmp a s⟩
  · exact ⟨_, exec_halt a s⟩

/-- Settles O18: phase 4 of the four is an update of ACC (`exec_accumulatorWriter`). -/
theorem accumulatorWritersFrame : Obligations.AccumulatorWritersFrame := by
  intro s t a i hi h
  obtain ⟨w, hw⟩ := exec_accumulatorWriter s hi
  obtain rfl : s.setAcc w = t := by rw [hw] at h; injection h
  exact ⟨rfl, rfl, rfl, fun _ => rfl⟩

/-- Settles O20: phase 4 of the four is an update of PC (`exec_transfer`). -/
theorem transfersFrame : Obligations.TransfersFrame := by
  intro s t a i hi h
  obtain ⟨p, hp⟩ := exec_transfer s hi
  obtain rfl : s.setPc p = t := by rw [hp] at h; injection h
  exact ⟨rfl, rfl, rfl, fun _ => rfl⟩

theorem State.writeMem_frame (s : State) (a : Addr) (v : Word) :
    (s.writeMem a v).pc = s.pc ∧ (s.writeMem a v).acc = s.acc ∧ (s.writeMem a v).trace = s.trace ∧
      (s.writeMem a v).loaded = s.loaded ∧ (s.writeMem a v).readMem a = v ∧
      ∀ b, b ≠ a → (s.writeMem a v).readMem b = s.readMem b :=
  ⟨rfl, rfl, rfl, rfl, Memory.read_write_same s.mem a v, fun _ hb => Memory.read_write_other s.mem v hb⟩

/-- Settles O19: phase 4 of the two is the write of one cell, whose frame is that of `State.writeMem`. -/
theorem storesFrame : Obligations.StoresFrame := by
  intro s t a
  refine ⟨fun h => ?direct, fun h => ?indirect⟩
  case direct =>
    obtain rfl : s.writeMem a s.acc = t := by rw [exec_store] at h; injection h
    exact State.writeMem_frame s a s.acc
  case indirect =>
    obtain rfl : s.writeMem (indirectAddr s a) s.acc = t := by rw [exec_storei] at h; injection h
    exact State.writeMem_frame s (indirectAddr s a) s.acc

/-- Settles O21: phase 4 answers the advanced state itself (`exec_of_mem_undefinedInstrs`), and the step records the
fetched word. -/
theorem undefinedOpcodesFrame : Obligations.UndefinedOpcodesFrame := by
  intro s t a hi h
  obtain ⟨-, u, hu, rfl⟩ := step_eq_next h
  obtain rfl : s.advancePc = u := by rw [exec_of_mem_undefinedInstrs _ hi] at hu; injection hu
  exact ⟨rfl, rfl, fun _ => rfl, rfl⟩

/-! ### How a step leaves PC -/

/-- Settles O22: PC is the one advanced in phase 2, unless phase 4 is a transfer, one case for each. -/
theorem pcAfterEachInstruction : Obligations.PcAfterEachInstruction := by
  intro s t h
  obtain ⟨-, u, hu, rfl⟩ := step_eq_next h
  rw [State.record_pc]
  generalize decode s.fetch = i at hu
  cases i <;> injection hu with hu <;> subst hu
  case jz a => rw [branchIf_pc, if_congr (isZero_iff_eq_zero _) rfl rfl]; rfl
  case jn a => rw [branchIf_pc, if_congr (isNegative_iff_signBit _) rfl rfl]; rfl
  case halt a => exact addrDec_addrInc s.pc
  all_goals rfl

/-- The condition under which phase 4 of an instruction loads its operand into PC. -/
def takesBranch (op : OpNibble) (acc : Word) : Prop :=
  (op = 0x8 ∧ acc = 0) ∨ (op = 0x9 ∧ acc.getLsbD 11 = true) ∨ op = 0xA

/-- All that a step can do to PC: advance it, load the operand, or keep it by a HALT. -/
theorem step_pc_cases {s t : State} (h : step s = .next t) :
    t.pc = addrInc s.pc ∨ (t.pc = operandOf s.fetch ∧ takesBranch (opcodeOf s.fetch) s.acc) ∨
      (t.pc = s.pc ∧ opcodeOf s.fetch = 0xF) := by
  have hpc := pcAfterEachInstruction s t h
  rw [← decode_operand, ← decode_opcode]
  cases hi : decode s.fetch <;> rw [hi] at hpc <;> dsimp only at hpc
  case jz a =>
    split at hpc
    · exact .inr (.inl ⟨hpc, .inl ⟨rfl, ‹_›⟩⟩)
    · exact .inl hpc
  case jn a =>
    split at hpc
    · exact .inr (.inl ⟨hpc, .inr (.inl ⟨rfl, ‹_›⟩)⟩)
    · exact .inl hpc
  case jmp a => exact .inr (.inl ⟨hpc, .inr (.inr rfl)⟩)
  case halt a => exact .inr (.inr ⟨hpc, rfl⟩)
  all_goals exact .inl hpc

theorem addrInc_ne_self (x : Addr) : addrInc x ≠ x := by
  rw [addrInc_eq]
  bv_omega

/-! ### The accesses of a step -/

/-- The accesses of phase 4 are at most two, reads and after them at most one write, of ACC. -/
theorem execAccesses_shape (i : Instr) (s : State) :
    ∃ reads writes : List Addr, execAccesses i s = reads.map .read ++ writes.map (.write · s.acc) ∧
      reads.length + writes.length ≤ 2 ∧ writes.length ≤ 1 := by
  cases i
  case sub a | add a | load a => exact ⟨[a], [], rfl, by simp⟩
  case store a => exact ⟨[], [a], rfl, by simp⟩
  case loadi a => exact ⟨[a, indirectAddr s a], [], rfl, by simp⟩
  case storei a => exact ⟨[a], [indirectAddr s a], rfl, by simp⟩
  all_goals exact ⟨[], [], rfl, by simp⟩

/-- A step reads, the fetch first, and then writes ACC at most once, at most three accesses in all. -/
theorem accesses_shape (s : State) :
    ∃ reads writes : List Addr, accesses s = (s.pc :: reads).map .read ++ writes.map (.write · s.acc) ∧
      reads.length + writes.length ≤ 2 ∧ writes.length ≤ 1 := by
  obtain ⟨reads, writes, heq, hlength⟩ := execAccesses_shape (decode s.fetch) s
  exact ⟨reads, writes, by rw [accesses, heq, List.map_cons, List.cons_append], hlength⟩

theorem writeAddr_of_mem_map_read {x : Access} {reads : List Addr} (h : x ∈ reads.map .read) : x.writeAddr = none := by
  obtain ⟨a, -, rfl⟩ := List.mem_map.mp h
  rfl

/-- Only the last access can be the write. -/
theorem writeAddr_of_mem_dropLast_accesses {s : State} {x : Access} (h : x ∈ (accesses s).dropLast) :
    x.writeAddr = none := by
  obtain ⟨reads, writes, heq, -, hone⟩ := accesses_shape s
  rw [heq] at h
  match writes, hone with
  | [], _ =>
    rw [List.map_nil, List.append_nil] at h
    exact writeAddr_of_mem_map_read (List.mem_of_mem_dropLast h)
  | [a], _ =>
    rw [List.map_singleton, List.dropLast_concat] at h
    exact writeAddr_of_mem_map_read h

theorem value_of_write_mem_accesses {s : State} {a : Addr} {v : Word} (h : .write a v ∈ accesses s) : v = s.acc := by
  obtain ⟨reads, writes, heq, -⟩ := accesses_shape s
  rw [heq, List.mem_append, List.mem_map, List.mem_map] at h
  obtain ⟨b, -, hb⟩ | ⟨b, -, hb⟩ := h
  · cases hb
  · injection hb with _ hv
    exact hv.symm

theorem mem_writtenCells_of_write_mem {s : State} {a : Addr} {v : Word} (h : .write a v ∈ accesses s) :
    a ∈ writtenCells s := List.mem_filterMap.mpr ⟨_, h, rfl⟩

/-- Settles O24: the list is the fetch, reads and at most one write of ACC (`accesses_shape`), and the written cells
are those the step changes (`step_readMem`). -/
theorem arbiterOrdersAccesses : Obligations.ArbiterOrdersAccesses := by
  intro s t h
  refine ⟨rfl, ?length, fun x hx => writeAddr_of_mem_dropLast_accesses hx, fun a v hwrite => ?write,
    fun b hb => ?frame⟩
  case length =>
    obtain ⟨reads, writes, heq, hlength, -⟩ := accesses_shape s
    simp only [heq, List.length_append, List.length_map, List.length_cons]
    omega
  case write =>
    have hv : v = s.acc := value_of_write_mem_accesses hwrite
    exact ⟨hv, by rw [step_readMem h, if_pos (mem_writtenCells_of_write_mem hwrite), hv]⟩
  case frame => rw [step_readMem h, if_neg hb]

/-! ### What a step cannot change -/

/-- A step writes no cell, or one, by opcode 5 or 7. -/
theorem writtenCells_cases (s : State) :
    writtenCells s = [] ∨ ∃ a, writtenCells s = [a] ∧ (opcodeOf s.fetch = 0x5 ∨ opcodeOf s.fetch = 0x7) := by
  rw [writtenCells_eq_exec, ← decode_opcode]
  cases decode s.fetch
  case store a => exact .inr ⟨a, rfl, .inl rfl⟩
  case storei a => exact .inr ⟨indirectAddr s a, rfl, .inr rfl⟩
  all_goals exact .inl rfl

theorem mem_writtenCells_of_changed {s t : State} {b : Addr} (h : step s = .next t) (hb : t.readMem b ≠ s.readMem b) :
    b ∈ writtenCells s := by
  by_contra hnot
  exact hb (by rw [step_readMem h, if_neg hnot])

theorem opcodeOf_of_mem_writtenCells {s : State} {b : Addr} (hb : b ∈ writtenCells s) :
    opcodeOf s.fetch = 0x5 ∨ opcodeOf s.fetch = 0x7 := by
  obtain hnone | ⟨a, -, hop⟩ := writtenCells_cases s
  · rw [hnone] at hb; cases hb
  · exact hop

theorem eq_of_mem_writtenCells {s : State} {b c : Addr} (hb : b ∈ writtenCells s) (hc : c ∈ writtenCells s) :
    b = c := by
  obtain hnone | ⟨a, hone, -⟩ := writtenCells_cases s
  · rw [hnone] at hb; cases hb
  · rw [hone, List.mem_singleton] at hb hc
    rw [hb, hc]

/-- ACC changes only by the opcodes of SUB, ADD, LOAD and LOADI. -/
theorem opcodeOf_of_acc_changed {s t : State} (h : step s = .next t) (hacc : t.acc ≠ s.acc) :
    opcodeOf s.fetch ∈ [0x2#4, 0x3#4, 0x4#4, 0x6#4] := by
  obtain ⟨-, u, hu, rfl⟩ := step_eq_next h
  rw [← decode_opcode]
  obtain hsame | ⟨a, hi, -⟩ | ⟨a, hi, -⟩ | ⟨a, hi, -⟩ | ⟨a, hi, -⟩ := exec_acc_cases hu
  · exact absurd hsame hacc
  all_goals
    rw [hi]
    simp [Instr.opcode]

/-- Settles O23: a cell that changed is among the at most one written (`writtenCells_cases`), ACC has four writers,
and PC is advanced, which moves it, or goes by `step_pc_cases`. -/
theorem stepFrameConditions : Obligations.StepFrameConditions := by
  intro s t h
  refine ⟨fun b c hb hc => eq_of_mem_writtenCells (mem_writtenCells_of_changed h hb) (mem_writtenCells_of_changed h hc),
    fun b hb => opcodeOf_of_mem_writtenCells (mem_writtenCells_of_changed h hb), opcodeOf_of_acc_changed h, ?_⟩
  obtain hnext | ⟨htarget, htakes⟩ | ⟨hsame, hhalt⟩ := step_pc_cases h
  · exact ⟨.inl hnext, fun hself => absurd (hnext.symm.trans hself) (addrInc_ne_self s.pc)⟩
  · exact ⟨.inr (.inl htarget), fun hself => .inr ⟨htarget.symm.trans hself, htakes⟩⟩
  · exact ⟨.inr (.inr hsame), fun _ => .inl hhalt⟩

/-! ### A step depends on memory only at the cells it reads -/

/-- Phase 4 on two states that agree on PC, ACC and the cells it reads makes the same accesses and leaves the same PC
and ACC. -/
theorem exec_agree {i : Instr} {s u t v : State} (hpc : s.pc = u.pc) (hacc : s.acc = u.acc)
    (hread : ∀ b ∈ (execAccesses i s).filterMap Access.readAddr, s.readMem b = u.readMem b)
    (ht : exec i s = .next t) (hv : exec i u = .next v) :
    execAccesses i s = execAccesses i u ∧ t.pc = v.pc ∧ t.acc = v.acc := by
  have hindirect : ∀ a, s.readMem a = u.readMem a → indirectAddr s a = indirectAddr u a := fun a ha => by
    rw [indirectAddr, ha, indirectAddr]
  cases i <;> injection ht with ht <;> injection hv with hv <;> subst ht <;> subst hv <;>
    simp only [execAccesses, Access.readAddr, List.filterMap_cons, List.filterMap_nil, List.forall_mem_cons,
      List.not_mem_nil, false_implies, implies_true, and_true] at hread
  case sub a | add a => exact ⟨rfl, hpc, by simp [directWord, directAddr, hacc, hread]⟩
  case load a => exact ⟨rfl, hpc, hread⟩
  case store a => exact ⟨by rw [execAccesses, execAccesses, hacc], hpc, hacc⟩
  case loadi a =>
    obtain ⟨hpointer, hpointed⟩ := hread
    have haddr := hindirect a hpointer
    refine ⟨by rw [execAccesses, execAccesses, haddr], hpc, ?_⟩
    calc s.readMem (indirectAddr s a)
        = u.readMem (indirectAddr s a) := hpointed
      _ = u.readMem (indirectAddr u a) := by rw [haddr]
  case storei a => exact ⟨by rw [execAccesses, execAccesses, hindirect a hread, hacc], hpc, hacc⟩
  case jz a | jn a =>
    exact ⟨rfl, by rw [branchIf_pc, branchIf_pc, hpc, hacc], by rw [branchIf_acc, branchIf_acc, hacc]⟩
  case jmp a => exact ⟨rfl, rfl, hacc⟩
  case halt a => exact ⟨rfl, by rw [State.setPc_pc, State.setPc_pc, hpc], hacc⟩
  all_goals exact ⟨rfl, hpc, hacc⟩

/-- The cells a step reads are the one it fetches from and those phase 4 reads on the advanced state. -/
theorem readCells_eq (s : State) :
    readCells s = s.pc :: (execAccesses (decode s.fetch) s.advancePc).filterMap Access.readAddr := by
  rw [execAccesses_advancePc]
  rfl

/-- Settles O25: the two cores fetch the same word, phase 4 agrees on what it is given (`exec_agree`), and a written
cell holds the ACC of the state before. -/
theorem stepDependsOnlyOnReadCells : Obligations.StepDependsOnlyOnReadCells := by
  intro s u hs hu hpc hacc hread
  rw [readCells_eq, List.forall_mem_cons] at hread
  obtain ⟨hfetched, hexecRead⟩ := hread
  have hfetch : u.fetch = s.fetch := by rw [State.fetch, State.fetch, ← hpc, hfetched]
  obtain ⟨t, ht, -⟩ := step_total hs
  obtain ⟨v, hv, -⟩ := step_total hu
  obtain ⟨-, t', htexec, rfl⟩ := step_eq_next ht
  obtain ⟨-, v', hvexec, rfl⟩ := step_eq_next hv
  rw [hfetch] at hvexec
  have hadvanced : s.advancePc.pc = u.advancePc.pc := by rw [State.advancePc_pc, State.advancePc_pc, hpc]
  obtain ⟨hsame, hpc', hacc'⟩ := exec_agree hadvanced hacc hexecRead htexec hvexec
  have haccesses : accesses s = accesses u := by
    rw [execAccesses_advancePc, execAccesses_advancePc] at hsame
    rw [accesses, accesses, hfetch, hpc, hsame]
  refine ⟨_, _, ht, hv, hpc', hacc', by rw [step_irOut ht, step_irOut hv, hfetch], haccesses, fun b hb => ?written⟩
  case written =>
    have hb' : b ∈ writtenCells u := by rwa [writtenCells, ← haccesses]
    rw [step_readMem ht, step_readMem hv, if_pos hb, if_pos hb', hacc]

end Sys2Proof.Machine
end

