-- ==== Sys2Proof/Proofs/SignedArithmetic.lean ====
section
/-!
PROOFS. The ALU on signed readings and the laws of arithmetic modulo 4096 (41_arithmetic.md section 2). A word is the
narrowing of its signed reading, so the narrowing alone carries every law.
-/

namespace Sys2Proof.Machine

/-! ### Narrowing and the signed reading -/

theorem trunc12_eq_of_emod_eq {m n : Int} (h : m % 4096 = n % 4096) : trunc12 m = trunc12 n := by
  apply BitVec.eq_of_toNat_eq
  have hcast : ((trunc12 m).toNat : Int) = (trunc12 n).toNat := by rw [trunc12_toNat, trunc12_toNat, h]
  exact_mod_cast hcast

/-- Bit 11 has the weight -2048 in the signed reading, 2048 in the number. -/
theorem sext12_eq_ite (v : Word) : sext12 v = if 0x800 ≤ v.toNat then (v.toNat : Int) - 4096 else v.toNat := by
  rw [sext12, if_congr (signBit_iff_le_toNat v) rfl rfl]

theorem sext12_range (v : Word) : -2048 ≤ sext12 v ∧ sext12 v ≤ 2047 := by
  have hlt : v.toNat < 4096 := v.isLt
  rw [sext12_eq_ite]
  split <;> omega

theorem sext12_emod (v : Word) : sext12 v % 4096 = v.toNat % 4096 := by
  rw [sext12_eq_ite]
  split <;> omega

/-- The signed reading of a narrowed number is the number up to a multiple of 4096. -/
theorem sext12_trunc12 (n : Int) : ∃ k : Int, sext12 (trunc12 n) = n + 4096 * k := by
  have hmod : sext12 (trunc12 n) % 4096 = n % 4096 := by rw [sext12_emod, trunc12_toNat, Int.emod_emod]
  exact ⟨(sext12 (trunc12 n) - n) / 4096, by omega⟩

/-- A number in the signed range is read back exactly. -/
theorem sext12_trunc12_of_range {n : Int} (hlo : -2048 ≤ n) (hhi : n ≤ 2047) : sext12 (trunc12 n) = n := by
  obtain ⟨k, hk⟩ := sext12_trunc12 n
  have hrange := sext12_range (trunc12 n)
  omega

theorem aluAdd_eq_trunc12_sext12 (x y : Word) : aluAdd x y = trunc12 (sext12 x + sext12 y) :=
  trunc12_eq_of_emod_eq (by rw [Int.add_emod, ← sext12_emod x, ← sext12_emod y, ← Int.add_emod])

theorem aluSub_eq_trunc12_sext12 (x y : Word) : aluSub x y = trunc12 (sext12 x - sext12 y) :=
  trunc12_eq_of_emod_eq (by rw [Int.sub_emod, ← sext12_emod x, ← sext12_emod y, ← Int.sub_emod])

/-- Settles O31: the ALU narrows the sum and the difference of the signed readings too, and a narrowed number reads
back up to a multiple of 4096, exactly when it is in range. -/
theorem arithmeticIsSignAgnostic : Obligations.ArithmeticIsSignAgnostic := by
  intro x y
  rw [aluAdd_eq_trunc12_sext12, aluSub_eq_trunc12_sext12]
  refine ⟨sext12_range x, sext12_trunc12 _, sext12_trunc12 _, sext12_trunc12_of_range, sext12_trunc12_of_range, ?_⟩
  rw [← aluSub_eq_trunc12_sext12]
  exact trunc12_eq_of_emod_eq (by omega)

/-! ### Laws modulo 4096 -/

theorem aluSub_aluAdd (x y : Word) : aluSub (aluAdd x y) y = x := by
  rw [aluSub_eq, aluAdd_eq, BitVec.add_sub_cancel]

theorem aluAdd_iterate_toNat (x y : Word) (n : Nat) :
    ((fun v => aluAdd v y)^[n] x).toNat = (x.toNat + n * y.toNat) % 4096 := by
  induction n with
  | zero => rw [Function.iterate_zero_apply, Nat.zero_mul, Nat.add_zero, Nat.mod_eq_of_lt x.isLt]
  | succ n ih =>
    rw [Function.iterate_succ_apply', aluAdd_toNat, ih, Nat.mod_add_mod, Nat.add_assoc, Nat.add_one_mul]

/-- Settles O32: SUB after ADD reads the same cell and takes its word off again (`aluSub_aluAdd`); the rest is
addition modulo 4096. -/
theorem addThenSubRestores : Obligations.AddThenSubRestores := by
  refine ⟨fun s t a h => ?restores, fun x y z => ⟨?comm, ?assoc⟩, fun x y => ?period, fun x y => ?complement⟩
  case restores =>
    obtain rfl : s.setAcc (aluAdd s.acc (s.readMem a)) = t := by rw [exec_add] at h; injection h
    rw [exec_sub, State.setAcc_acc, State.setAcc_readMem, aluSub_aluAdd]
    rfl
  case comm => rw [aluAdd_eq, aluAdd_eq, BitVec.add_comm]
  case assoc => simp only [aluAdd_eq, BitVec.add_assoc]
  case period =>
    apply BitVec.eq_of_toNat_eq
    rw [aluAdd_iterate_toNat, Nat.add_mul_mod_self_left, Nat.mod_eq_of_lt x.isLt]
  case complement =>
    exact trunc12_eq_of_emod_eq (by rw [trunc12_toNat]; omega)

end Sys2Proof.Machine
end

