-- ==== Sys2Proof/Proofs/Refinement.lean ====
section
/-!
PROOFS. The step against the two other descriptions of it: the datapath under its control table (40_step_cycle.md
sections 2 and 3) and the pseudocode on plain numbers (section 1).
-/

namespace Sys2Proof.Machine

/-! ### The datapath -/

/-- What the sub-blocks compute under the control values `c` and the operand `a`: `datapathStep` without its fetch and
its record. -/
def datapathExec (c : Control) (a : Addr) (s : State) : State :=
  let word2 := if c.rdA then s.mem.read a else 0
  let ea := if c.ind then pointerAddr word2 else a
  let b := if c.ind then s.mem.read ea else word2
  { s with
    pc := selectPc c.pcSel (addrInc s.pc) a s.acc
    acc := if c.accWe then alu c.aluFn s.acc b else s.acc
    mem := if c.memWe then s.mem.write ea s.acc else s.mem }

theorem datapathStep_eq (s : State) :
    datapathStep s = (datapathExec (controlOf (opcodeOf s.fetch)) (operandOf s.fetch) s).record s.fetch := rfl

/-- The control table's row for an opcode does to the state before the advance what phase 4 of the instruction does to
the advanced state. -/
theorem exec_eq_datapathExec (i : Instr) (s : State) :
    exec i s.advancePc = .next (datapathExec (controlOf i.opcode) i.operand s) := by
  cases i
  case jz a => rw [exec_jz, branchIf_eq, if_congr (isZero_iff_eq_zero _) rfl rfl]; rfl
  case jn a => rw [exec_jn, branchIf_eq, if_congr (isNegative_iff_signBit _) rfl rfl]; rfl
  all_goals rfl

/-- Settles O40: phase 4 is the datapath under the control table's row (`exec_eq_datapathExec`), and both record the
fetched word. -/
theorem datapathRefinesStep : Obligations.DatapathRefinesStep := by
  intro s hloaded
  rw [step_loaded hloaded, exec_eq_datapathExec, retire_next, decode_opcode, decode_operand, datapathStep_eq]

/-! ### The pseudocode on plain numbers -/

theorem refTrunc12_toNat (n : Int) : refTrunc12 n = (trunc12 n).toNat := by
  rw [refTrunc12, ← trunc12_toNat, Int.toNat_natCast]

theorem refTrunc8_toNat (n : Int) : refTrunc8 n = (trunc8 n).toNat := by
  rw [refTrunc8, trunc8, BitVec.toNat_ofInt]
  rfl

/-- A cell of the numbers is the cell of the state. -/
theorem State.asRef_mem (s : State) (a : Addr) : s.asRef.mem a.toNat = (s.readMem a).toNat := by
  show (s.readMem (BitVec.ofNat 8 a.toNat)).toNat = (s.readMem a).toNat
  rw [BitVec.ofNat_toNat, BitVec.setWidth_eq]

theorem State.asRef_advancePc (s : State) :
    s.advancePc.asRef = { s.asRef with pc := refTrunc8 ((s.asRef.pc : Int) + 1) } := by
  rw [refTrunc8_toNat]
  rfl

theorem RefState.agrees_of_eq {r q : RefState} (h : r = q) : r.agrees q := by
  subst h
  exact ⟨rfl, rfl, fun _ _ => rfl⟩

theorem indirectAddr_toNat_eq_asRef (s : State) (a : Addr) : (indirectAddr s a).toNat = s.asRef.mem a.toNat % 256 := by
  rw [indirectAddr_toNat, State.asRef_mem]

/-- A written cell is the one cell of the numbers replaced. -/
theorem State.asRef_writeMem_agrees (s : State) (a : Addr) (v : Word) :
    (s.writeMem a v).asRef.agrees { s.asRef with mem := refWrite s.asRef.mem a.toNat v.toNat } := by
  refine ⟨rfl, rfl, fun n hn => ?_⟩
  obtain ⟨b, rfl⟩ : ∃ b : Addr, b.toNat = n := ⟨BitVec.ofNat 8 n, Nat.mod_eq_of_lt hn⟩
  calc (s.writeMem a v).asRef.mem b.toNat
      = (if b = a then v else s.readMem b).toNat := by rw [State.asRef_mem, State.writeMem_readMem]
    _ = if b.toNat = a.toNat then v.toNat else s.asRef.mem b.toNat := by
      rw [apply_ite BitVec.toNat, if_congr BitVec.toNat_inj.symm rfl rfl, State.asRef_mem]

theorem State.asRef_setAcc {s : State} {w : Word} {n : Nat} (h : w.toNat = n) :
    (s.setAcc w).asRef = { s.asRef with acc := n } := by
  subst h
  rfl

theorem State.asRef_setPc {s : State} {p : Addr} {n : Nat} (h : p.toNat = n) :
    (s.setPc p).asRef = { s.asRef with pc := n } := by
  subst h
  rfl

theorem branchIf_asRef {c : Bool} {p : Prop} [Decidable p] (h : c = true ↔ p) (a : Addr) (s : State) :
    (branchIf c a s).asRef = if p then { s.asRef with pc := a.toNat } else s.asRef := by
  rw [branchIf, if_congr h rfl rfl, apply_ite State.asRef, State.asRef_setPc rfl]

theorem aluAdd_toNat_eq_asRef (s : State) (a : Addr) :
    (aluAdd s.acc (s.readMem a)).toNat = refTrunc12 ((s.asRef.acc : Int) + s.asRef.mem a.toNat) := by
  rw [State.asRef_mem, refTrunc12_toNat]
  rfl

theorem aluSub_toNat_eq_asRef (s : State) (a : Addr) :
    (aluSub s.acc (s.readMem a)).toNat = refTrunc12 ((s.asRef.acc : Int) - s.asRef.mem a.toNat) := by
  rw [State.asRef_mem, refTrunc12_toNat]
  rfl

/-- Phase 4 of an instruction is phase 4 of the pseudocode, by its opcode number. -/
theorem exec_agrees_refExecute {i : Instr} {s t : State} (h : exec i s = .next t) :
    t.asRef.agrees (refExecute i.opcode.toNat i.operand.toNat s.asRef) := by
  cases i <;> injection h with h <;> subst h
  case store a => exact State.asRef_writeMem_agrees s a s.acc
  case storei a =>
    have hwrite := State.asRef_writeMem_agrees s (indirectAddr s a) s.acc
    rw [indirectAddr_toNat_eq_asRef] at hwrite
    exact hwrite
  all_goals apply RefState.agrees_of_eq
  case sub a => exact State.asRef_setAcc (aluSub_toNat_eq_asRef s a)
  case add a => exact State.asRef_setAcc (aluAdd_toNat_eq_asRef s a)
  case load a => exact State.asRef_setAcc (State.asRef_mem s a).symm
  case loadi a =>
    apply State.asRef_setAcc
    calc (indirectWord s a).toNat
        = s.asRef.mem (indirectAddr s a).toNat := (State.asRef_mem s _).symm
      _ = s.asRef.mem (s.asRef.mem a.toNat % 256) := by rw [indirectAddr_toNat_eq_asRef]
  case jz a => exact branchIf_asRef (isZero_iff_toNat_eq_zero s.acc) a s
  case jn a => exact branchIf_asRef ((isNegative_iff_signBit s.acc).trans (signBit_iff_le_toNat s.acc)) a s
  case halt a => exact State.asRef_setPc (refTrunc8_toNat _).symm
  all_goals rfl

/-! ### The whole step -/

/-- The last narrowing of the pseudocode, phase 5. -/
def RefState.maskAcc (r : RefState) : RefState := { r with acc := refTrunc12 r.acc }

/-- Phase 5 is the identity on the reading of a state, whose ACC has 12 bits. -/
theorem agrees_maskAcc {s : State} {r : RefState} (h : s.asRef.agrees r) : s.asRef.agrees r.maskAcc := by
  obtain ⟨hpc, hacc, hmem⟩ := h
  refine ⟨hpc, ?_, hmem⟩
  calc s.asRef.acc
      = (trunc12 (s.acc.toNat : Int)).toNat := by rw [trunc12_natCast]; rfl
    _ = refTrunc12 s.asRef.acc := (refTrunc12_toNat _).symm
    _ = refTrunc12 r.acc := by rw [hacc]

/-- The two fields of a word are its number divided by 256, with remainder. -/
theorem toNat_eq_opcodeOf_operandOf (w : Word) : w.toNat = (opcodeOf w).toNat * 256 + (operandOf w).toNat := by
  rw [← opcode_append_operand_toNat, opcodeOf_append_operandOf]

theorem toNat_div_256 (w : Word) : w.toNat / 256 = (opcodeOf w).toNat := by
  have hlt := (operandOf w).isLt
  have heq := toNat_eq_opcodeOf_operandOf w
  omega

theorem toNat_mod_256 (w : Word) : w.toNat % 256 = (operandOf w).toNat := by
  have hlt := (operandOf w).isLt
  have heq := toNat_eq_opcodeOf_operandOf w
  omega

/-- The pseudocode fetches the word of the step and runs phase 4 by its two fields from the advanced PC. -/
theorem refStep_asRef (s : State) :
    refStep s.asRef =
      ((refExecute (opcodeOf s.fetch).toNat (operandOf s.fetch).toNat s.advancePc.asRef).maskAcc, s.fetch.toNat) := by
  have hop : s.fetch.toNat / 256 = (opcodeOf s.fetch).toNat := toNat_div_256 s.fetch
  have harg : s.fetch.toNat % 256 = (operandOf s.fetch).toNat := toNat_mod_256 s.fetch
  have hfetch : s.asRef.mem s.asRef.pc = s.fetch.toNat := State.asRef_mem s s.pc
  rw [refStep, hfetch, hop, harg, State.asRef_advancePc, RefState.maskAcc]

/-- Settles O39: both fetch the same word (`refStep_asRef`), phase 4 agrees (`exec_agrees_refExecute`), and the last
narrowing changes nothing (`agrees_maskAcc`). -/
theorem stepRefinesPseudocode : Obligations.StepRefinesPseudocode := by
  intro s hloaded
  obtain ⟨t, ht, -⟩ := step_total hloaded
  refine ⟨t, ht, ?agrees, s.fetch, step_irOut ht, ?output⟩
  case output => rw [refStep_asRef]
  case agrees =>
    obtain ⟨-, u, hu, rfl⟩ := step_eq_next ht
    have hexec := exec_agrees_refExecute hu
    rw [decode_opcode, decode_operand] at hexec
    rw [refStep_asRef]
    exact agrees_maskAcc hexec

end Sys2Proof.Machine
end

