-- ==== Sys2Proof/Proofs/EndOfRun.lean ====
section
/-!
PROOFS. Halted states, the end of a run and the driver (43_control_transfer.md R115, 45_host_interface.md R144). A
HALT, and a transfer taken to itself, is a step that only records its word, and such a step repeats for ever.
-/

namespace Sys2Proof.Machine

/-! ### A step that only records its word repeats -/

/-- Such a step is taken again from the state it leaves, which differs in the Trace alone. -/
theorem runSteps_of_step_record {s : State} (n : Nat) (h : step s = .next (s.record s.fetch)) :
    runSteps n s = .next { s with trace := s.trace ++ List.replicate n s.fetch } := by
  induction n generalizing s with
  | zero => rw [runSteps_zero, List.replicate_zero, List.append_nil]
  | succ n ih =>
    have hagain : step (s.record s.fetch) = .next ((s.record s.fetch).record s.fetch) :=
      step_withTrace (s.trace ++ [s.fetch]) h
    rw [runSteps_succ n h, ih hagain, State.record_trace, List.append_assoc]
    rfl

/-! ### Halted states -/

theorem step_of_halted {s : State} (hloaded : s.loaded = true) (h : halted s) :
    step s = .next (s.record s.fetch) := by
  have hword : s.fetch = 0xF#4 ++ operandOf s.fetch := by
    rw [← show opcodeOf s.fetch = 0xF#4 from h, opcodeOf_append_operandOf]
  rw [hword]
  exact step_halt hloaded hword

theorem runSteps_of_halted {s : State} (n : Nat) (hloaded : s.loaded = true) (h : halted s) :
    runSteps n s = .next { s with trace := s.trace ++ List.replicate n s.fetch } :=
  runSteps_of_step_record n (step_of_halted hloaded h)

/-- Settles O38: the HALT step only records its word (`step_of_halted`), and such a step repeats
(`runSteps_of_step_record`); the Trace plays no part in being halted. -/
theorem haltedRunIsFixed : Obligations.HaltedRunIsFixed := fun n _ hloaded hhalted =>
  ⟨_, runSteps_of_halted n hloaded hhalted, rfl, hhalted⟩

/-! ### The driver (R144) -/

/-- After a step, the driver's test says whether the state before it was halted. -/
theorem driverSawHalt_iff_halted {s t : State} (hloaded : s.loaded = true) (h : step s = .next t) :
    driverSawHalt s t = true ↔ halted s := by
  rw [driverSawHalt, step_irOut h]
  constructor
  · intro hsaw
    rw [Bool.and_eq_true, decide_eq_true_iff] at hsaw
    exact hsaw.1
  · intro hhalted
    obtain rfl : s.record s.fetch = t := by rw [step_of_halted hloaded hhalted] at h; injection h
    exact Bool.and_eq_true_iff.mpr ⟨decide_eq_true hhalted, decide_eq_true rfl⟩

theorem drive_succ_of_halted {s : State} (cap : Nat) (hloaded : s.loaded = true) (h : halted s) :
    drive (cap + 1) s = .next (s.record s.fetch) := by
  have hstep := step_of_halted hloaded h
  rw [drive, hstep]
  exact if_pos ((driverSawHalt_iff_halted hloaded hstep).mpr h)

theorem drive_succ_of_not_halted {s t : State} (cap : Nat) (hloaded : s.loaded = true) (h : ¬halted s)
    (hstep : step s = .next t) : drive (cap + 1) s = drive cap t := by
  rw [drive, hstep]
  exact if_neg (mt (driverSawHalt_iff_halted hloaded hstep).mp h)

/-- Settles O47: the driver's test sees exactly the halted states (`driverSawHalt_iff_halted`). -/
theorem driverStopsAfterFirstHalt : Obligations.DriverStopsAfterFirstHalt := by
  refine fun s cap hloaded => ⟨drive_succ_of_halted cap hloaded, fun hrunning => ?_⟩
  obtain ⟨t, ht, -⟩ := step_total hloaded
  exact ⟨t, ht, drive_succ_of_not_halted cap hloaded hrunning ht⟩

/-! ### The end of a run (R115) -/

theorem runEnds_zero_iff {s t : State} : RunEnds 0 s t ↔ s = t ∧ halted s := by
  constructor
  · rintro ⟨hrun, hhalted, -⟩
    injection hrun with hrun
    subst hrun
    exact ⟨rfl, hhalted⟩
  · rintro ⟨rfl, hhalted⟩
    exact ⟨runSteps_zero s, hhalted, fun k _ hk => absurd hk k.not_lt_zero⟩

/-- A run ends one step later exactly when it is not at its end and the rest of it ends. -/
theorem runEnds_succ_iff {s t u : State} {n : Nat} (hstep : step s = .next u) :
    RunEnds (n + 1) s t ↔ ¬halted s ∧ RunEnds n u t := by
  constructor
  · rintro ⟨hrun, hhalted, hfirst⟩
    rw [runSteps_succ n hstep] at hrun
    exact ⟨hfirst 0 s n.succ_pos (runSteps_zero s), hrun, hhalted, fun k v hk hv =>
      hfirst (k + 1) v (Nat.succ_lt_succ hk) ((runSteps_succ k hstep).trans hv)⟩
  · rintro ⟨hrunning, hrun, hhalted, hfirst⟩
    refine ⟨(runSteps_succ n hstep).trans hrun, hhalted, fun k v hk hv => ?_⟩
    cases k with
    | zero =>
      injection hv with hv
      exact hv ▸ hrunning
    | succ k => exact hfirst k v (Nat.lt_of_succ_lt_succ hk) ((runSteps_succ k hstep).symm.trans hv)

theorem runEnds_of_halted_iff {s t : State} {n : Nat} (hloaded : s.loaded = true) (h : halted s) :
    RunEnds n s t ↔ n = 0 ∧ s = t := by
  cases n with
  | zero => rw [runEnds_zero_iff, and_iff_left h, and_iff_right rfl]
  | succ n =>
    rw [runEnds_succ_iff (step_of_halted hloaded h)]
    exact iff_of_false (fun hends => hends.1 h) (fun heq => absurd heq.1 n.succ_ne_zero)

theorem RunEnds.unique {n m : Nat} {s t u : State} (hn : RunEnds n s t) (hm : RunEnds m s u) : n = m ∧ t = u := by
  obtain ⟨hnrun, hnhalted, hnfirst⟩ := hn
  obtain ⟨hmrun, hmhalted, hmfirst⟩ := hm
  obtain hlt | rfl | hgt := Nat.lt_trichotomy n m
  · exact absurd hnhalted (hmfirst n t hlt hnrun)
  · rw [hnrun] at hmrun
    injection hmrun with hmrun
    exact ⟨rfl, hmrun⟩
  · exact absurd hmhalted (hnfirst m u hgt hmrun)

theorem RunEnds.loaded {n : Nat} {s t : State} (hloaded : s.loaded = true) (h : RunEnds n s t) :
    t.loaded = true := by
  obtain ⟨u, hu, huloaded⟩ := runSteps_total n hloaded
  obtain rfl : u = t := by rw [h.1] at hu; injection hu with hu; exact hu.symm
  exact huloaded

/-- The search finds exactly the ends within its bound. -/
theorem endWithin_eq_some_iff {b n : Nat} {s t : State} (hloaded : s.loaded = true) :
    endWithin b s = some (n, t) ↔ n ≤ b ∧ RunEnds n s t := by
  induction b generalizing s n with
  | zero =>
    rw [Nat.le_zero]
    by_cases hhalted : halted s
    · rw [endWithin_halted 0 hhalted, runEnds_of_halted_iff hloaded hhalted, Option.some_inj, Prod.mk.injEq,
        @eq_comm _ 0, and_self_left]
    · rw [endWithin, if_neg hhalted]
      refine iff_of_false (Option.some_ne_none _ |>.symm) ?_
      rintro ⟨rfl, hends⟩
      exact hhalted (runEnds_zero_iff.mp hends).2
  | succ b ih =>
    by_cases hhalted : halted s
    · rw [endWithin_halted _ hhalted, runEnds_of_halted_iff hloaded hhalted, Option.some_inj, Prod.mk.injEq,
        @eq_comm _ 0]
      refine ⟨fun heq => ⟨heq.1 ▸ Nat.zero_le _, heq⟩, fun h => h.2⟩
    · obtain ⟨u, hu, huloaded⟩ := step_total hloaded
      rw [endWithin_succ b hhalted hu]
      cases n with
      | zero =>
        refine iff_of_false (by simp) ?_
        rintro ⟨-, hends⟩
        exact hhalted (runEnds_zero_iff.mp hends).2
      | succ n =>
        rw [runEnds_succ_iff hu, and_iff_right hhalted, Nat.succ_le_succ_iff, ← ih huloaded]
        simp [Prod.ext_iff]

/-- Under a cap above the number of steps of the run, the driver reaches its end and executes the HALT there. -/
theorem drive_of_runEnds {n cap : Nat} {s t : State} (hloaded : s.loaded = true) (h : RunEnds n s t)
    (hcap : n < cap) : drive cap s = .next (t.record t.fetch) := by
  induction n generalizing s cap with
  | zero =>
    obtain ⟨rfl, hhalted⟩ := runEnds_zero_iff.mp h
    obtain ⟨cap, rfl⟩ := Nat.exists_eq_add_one_of_ne_zero (Nat.ne_of_gt hcap)
    exact drive_succ_of_halted cap hloaded hhalted
  | succ n ih =>
    obtain ⟨u, hu, huloaded⟩ := step_total hloaded
    obtain ⟨hrunning, hends⟩ := (runEnds_succ_iff hu).mp h
    obtain ⟨cap, rfl⟩ := Nat.exists_eq_add_one_of_ne_zero (Nat.ne_zero_of_lt hcap)
    rw [drive_succ_of_not_halted cap hloaded hrunning hu]
    exact ih huloaded hends (Nat.lt_of_succ_lt_succ hcap)

/-- Settles O49: the search is `endWithin_eq_some_iff`, the end is unique because it is the first halted state, the
driver is `drive_of_runEnds`, and the steps after the end are those of a halted state. -/
theorem endOfRunIsFirstHaltedState : Obligations.EndOfRunIsFirstHaltedState := by
  refine fun s hloaded => ⟨fun _ _ _ => endWithin_eq_some_iff hloaded, fun _ _ _ _ => RunEnds.unique,
    fun n t hends => ?_⟩
  have ⟨hrun, hhalted, _⟩ := hends
  refine ⟨runSteps_trace_length hrun, fun cap => drive_of_runEnds hloaded hends, fun m => ?_⟩
  rw [runSteps_add m hrun]
  exact runSteps_of_halted m (hends.loaded hloaded) hhalted

/-! ### Runs without end -/

/-- PC points at a JMP to itself, or at a JZ or JN to itself that is taken. -/
def State.atSelfLoop (s : State) : Prop :=
  decode s.fetch = .jmp s.pc ∨ (decode s.fetch = .jz s.pc ∧ s.acc = 0) ∨
    (decode s.fetch = .jn s.pc ∧ s.acc.getLsbD 11 = true)

/-- A transfer taken to itself puts the advanced PC back. -/
theorem step_of_selfLoop {s : State} (hloaded : s.loaded = true) (h : s.atSelfLoop) :
    step s = .next (s.record s.fetch) := by
  have hback : branchIf true s.pc s.advancePc = s := rfl
  rw [step_loaded hloaded]
  obtain hi | ⟨hi, hzero⟩ | ⟨hi, hneg⟩ := h
  · rw [hi, exec_jmp, ← retire_next]; rfl
  · rw [hi, exec_jz, State.advancePc_acc, (isZero_iff_eq_zero _).mpr hzero, hback, retire_next]
  · rw [hi, exec_jn, State.advancePc_acc, (isNegative_iff_signBit _).mpr hneg, hback, retire_next]

theorem not_halted_of_selfLoop {s : State} (h : s.atSelfLoop) : ¬halted s := by
  show ¬opcodeOf s.fetch = 0xF
  rw [← decode_opcode]
  obtain hi | ⟨hi, -⟩ | ⟨hi, -⟩ := h <;> simp [hi, Instr.opcode]

theorem RunNeverEnds.of_step {s t : State} (h : RunNeverEnds s) (hstep : step s = .next t) : RunNeverEnds t :=
  fun n u hu => h (n + 1) u ((runSteps_succ n hstep).trans hu)

theorem drive_of_runNeverEnds {s : State} (cap : Nat) (hloaded : s.loaded = true) (h : RunNeverEnds s) :
    drive cap s = runSteps cap s := by
  induction cap generalizing s with
  | zero => rfl
  | succ cap ih =>
    obtain ⟨t, ht, htloaded⟩ := step_total hloaded
    rw [drive_succ_of_not_halted cap hloaded (h 0 s (runSteps_zero s)) ht, runSteps_succ cap ht]
    exact ih htloaded (h.of_step ht)

/-- Settles O50: a transfer taken to itself only records its word (`step_of_selfLoop`), so it repeats for ever, and
the driver, which stops at halted states only, spends its cap. -/
theorem selfLoopsAreNoEnd : Obligations.SelfLoopsAreNoEnd := by
  refine ⟨fun s hloaded hself => ?loop, fun s cap => drive_of_runNeverEnds cap⟩
  have hrun := fun n => runSteps_of_step_record n (step_of_selfLoop hloaded hself)
  refine ⟨fun n t ht => ?_, hrun⟩
  rw [hrun n] at ht
  injection ht with ht
  subst ht
  exact not_halted_of_selfLoop hself

end Sys2Proof.Machine
end

