-- ==== Sys2Proof/Proofs/LoadText.lean ====
section
/-!
PROOFS. Load on texts (45_host_interface.md section 2): cutting a text at its line ends, what the tokens of its lines
decide, comments, a header of one token; and the core a Load leaves (70_reset_and_hazards.md section 1).
-/

namespace Sys2Proof.Machine

/-! ### The outcome of Load -/

theorem loadFile_eq_true {file : Option Text} {s t : State} (h : loadFile file s = (true, t)) :
    ∃ d, t = State.ofDescription d := by
  cases file with
  | none => cases h
  | some text =>
    cases hparse : parseDescription Config.acceptLowerHex text with
    | none => simp [loadFile, hparse] at h
    | some d => exact ⟨d, by simpa [loadFile, hparse] using h.symm⟩

theorem loadFile_eq_false {file : Option Text} {s t : State} (h : loadFile file s = (false, t)) :
    t = s.afterFailedLoad file := by
  cases file with
  | none => exact (Prod.ext_iff.mp h).2.symm
  | some text =>
    cases hparse : parseDescription Config.acceptLowerHex text with
    | none => simpa [loadFile, hparse] using h.symm
    | some d => simp [loadFile, hparse] at h

theorem loadFile_of_parseDescription_eq_none {text : Text} (h : parseDescription Config.acceptLowerHex text = none)
    (s : State) : (loadFile (some text) s).1 = false := by
  rw [loadFile, h]

theorem step_of_not_loaded {s : State} (h : s.loaded = false) : step s = .refused .notLoaded := by
  rw [step, h]

/-- Settles O44: a core never loaded and one whose Load failed (`loadFile_eq_false`) carry no mark, without which step
refuses; a successful Load leaves the state of a description (`loadFile_eq_true`). -/
theorem failedLoadLeavesNoStep : Obligations.FailedLoadLeavesNoStep := by
  refine ⟨rfl, rfl, fun s => step_of_not_loaded, fun file s t h => ?failed, fun file s t h => ?succeeded⟩
  case failed =>
    rw [loadFile_eq_false h]
    exact step_of_not_loaded rfl
  case succeeded =>
    obtain ⟨d, rfl⟩ := loadFile_eq_true h
    exact ⟨rfl, State.ofDescription_canonical d⟩

/-- Settles O35: the fields are those of `State.reset`, and the all-zero header parses to the description of zeros
with no assignment. -/
theorem resetStateIsCanonical : Obligations.ResetStateIsCanonical := by
  have hparse : parseDescription Config.acceptLowerHex "00000000 000000000000".toList =
      some { pc := 0, acc := 0, cells := [] } := by decide
  exact ⟨State.reset_mem_wf, rfl, rfl, rfl, rfl, Memory.read_nil, loadFile_of_parseDescription hparse⟩

/-! ### Cutting a text at its line ends -/

/-- The first piece of a text, and the others. -/
theorem splitAtChar_eq_cons (sep : Char) (t : Text) : ∃ x xs, splitAtChar sep t = x :: xs := by
  cases t with
  | nil => exact ⟨[], [], rfl⟩
  | cons c t =>
    rw [splitAtChar]
    split
    · exact ⟨_, _, rfl⟩
    · split <;> exact ⟨_, _, rfl⟩

/-- A text without a separator goes before the first piece of what follows it. -/
theorem splitAtChar_append_of_eq_cons {sep : Char} {t rest x : Text} {xs : List Text} (ht : ∀ c ∈ t, c ≠ sep)
    (hrest : splitAtChar sep rest = x :: xs) : splitAtChar sep (t ++ rest) = (t ++ x) :: xs := by
  induction t with
  | nil => exact hrest
  | cons c t ih =>
    obtain ⟨hc, ht⟩ := List.forall_mem_cons.mp ht
    rw [List.cons_append, splitAtChar, if_neg hc, ih ht]
    rfl

/-- Whole lines at the beginning are pieces of their own. -/
theorem splitAtChar_lines (sep : Char) {ls : List Text} (rest : Text) (h : ∀ l ∈ ls, ∀ c ∈ l, c ≠ sep) :
    splitAtChar sep ((ls.flatMap fun l => l ++ [sep]) ++ rest) = ls ++ splitAtChar sep rest := by
  induction ls with
  | nil => rfl
  | cons l ls ih =>
    obtain ⟨hl, hls⟩ := List.forall_mem_cons.mp h
    rw [List.flatMap_cons, List.append_assoc, List.append_assoc, List.singleton_append, splitAtChar_append sep l _ hl,
      ih hls, List.cons_append]

/-- Up to a separator, the pieces do not depend on what follows. -/
theorem splitAtChar_concat_append (sep : Char) (t rest : Text) :
    splitAtChar sep (t ++ sep :: rest) = splitAtChar sep t ++ splitAtChar sep rest := by
  induction t with
  | nil => simp [splitAtChar]
  | cons c t ih =>
    by_cases hc : c = sep
    · simp [splitAtChar, hc, ih]
    · obtain ⟨x, xs, hx⟩ := splitAtChar_eq_cons sep t
      simp [splitAtChar, hc, ih, hx]

/-! ### Comments -/

/-- Nothing, or a comment. -/
def isComment (t : Text) : Prop := t = [] ∨ t.head? = some '#'

/-- A comment is cut off the line it ends, if there is one. -/
theorem uncommented_append_comment {t comment : Text} (ht : ∀ c ∈ t, c ≠ '#') (hcomment : isComment comment) :
    uncommented (t ++ comment) = t := by
  obtain rfl | hhead := hcomment
  · rw [List.append_nil, uncommented_eq_self t ht]
  · obtain ⟨rest, rfl⟩ : ∃ rest, comment = '#' :: rest := List.head?_eq_some_iff.mp hhead
    exact uncommented_append t rest ht

theorem tokensOf_blank {l : Text} (h : isComment l) : tokensOf l = [[]] := by
  have hblank : uncommented l = [] := uncommented_append_comment (t := []) (fun _ hc => absurd hc List.not_mem_nil) h
  rw [tokensOf, hblank]
  rfl

/-- A token, and a comment perhaps, is a line of one token. -/
theorem tokensOf_token {t comment : Text} (ht : ∀ c ∈ t, c ≠ ' ' ∧ c ≠ '#') (hcomment : isComment comment) :
    tokensOf (t ++ comment) = [t] := by
  rw [tokensOf, uncommented_append_comment (fun c hc => (ht c hc).2) hcomment,
    splitAtChar_single ' ' t fun c hc => (ht c hc).1]

/-! ### A header of one token (EX8) -/

theorem parseHeader_skip {skipped : List Text} (ls : List Text) (h : ∀ l ∈ skipped, isComment l) :
    parseHeader (skipped ++ ls) = parseHeader ls := by
  induction skipped with
  | nil => rfl
  | cons l skipped ih =>
    obtain ⟨hl, hskipped⟩ := List.forall_mem_cons.mp h
    rw [List.cons_append, parseHeader, tokensOf_blank hl]
    exact ih hskipped

theorem parseHeader_of_one_token {l t : Text} {ls : List Text} (h : tokensOf l = [t]) (ht : t ≠ []) :
    parseHeader (l :: ls) = none := by
  rw [parseHeader, h]
  cases t with
  | nil => exact absurd rfl ht
  | cons c t => rfl

theorem parseDescription_of_parseHeader_eq_none {lower : Bool} {t : Text}
    (h : parseHeader (splitAtChar '\n' t) = none) : parseDescription lower t = none := by
  rw [parseDescription, h]
  exact ite_self none

/-- What may follow the token begins with a comment on its line, or with no text there. -/
theorem splitAtChar_tail {tail : Text} (h : tail = [] ∨ tail.head? = some '\n' ∨ tail.head? = some '#') :
    ∃ comment ls, splitAtChar '\n' tail = comment :: ls ∧ isComment comment := by
  obtain rfl | hend | hmark := h
  · exact ⟨[], [], rfl, .inl rfl⟩
  · obtain ⟨rest, rfl⟩ := List.head?_eq_some_iff.mp hend
    exact ⟨[], _, splitAtChar_append '\n' [] rest (fun _ hc => absurd hc List.not_mem_nil), .inl rfl⟩
  · obtain ⟨rest, rfl⟩ := List.head?_eq_some_iff.mp hmark
    obtain ⟨x, xs, hx⟩ := splitAtChar_eq_cons '\n' rest
    exact ⟨'#' :: x, xs, splitAtChar_append_of_eq_cons (t := ['#']) (by simp) hx, .inr rfl⟩

/-- Settles O43: the blank and comment lines are skipped (`parseHeader_skip`), and the header is then a line of one
token (`tokensOf_token`), whatever ends it. -/
theorem oneTokenHeaderFails : Obligations.OneTokenHeaderFails := by
  intro skipped token tail s hskipped htoken hchars htail
  obtain ⟨comment, ls, htailLines, hcomment⟩ := splitAtChar_tail htail
  have hlines : splitAtChar '\n' ((skipped.flatMap fun l => l ++ ['\n']) ++ (token ++ tail)) =
      skipped ++ (token ++ comment) :: ls := by
    rw [splitAtChar_lines '\n' _ fun l hl => (hskipped l hl).2,
      splitAtChar_append_of_eq_cons (fun c hc => (hchars c hc).2.1) htailLines]
  have honeToken : tokensOf (token ++ comment) = [token] :=
    tokensOf_token (fun c hc => ⟨(hchars c hc).1, (hchars c hc).2.2⟩) hcomment
  apply loadFile_of_parseDescription_eq_none
  apply parseDescription_of_parseHeader_eq_none
  rw [hlines, parseHeader_skip _ fun l hl => (hskipped l hl).1]
  exact parseHeader_of_one_token honeToken htoken

/-! ### The tokens of the lines decide -/

theorem parseCells_eq_of_tokens {lower : Bool} {ls ms : List Text} (h : ls.map tokensOf = ms.map tokensOf) :
    parseCells lower ls = parseCells lower ms := by
  induction ls generalizing ms with
  | nil => rw [List.map_eq_nil_iff.mp h.symm]
  | cons l ls ih =>
    obtain ⟨m, ms, rfl, hm, hms⟩ := List.map_eq_cons_iff.mp h.symm
    rw [parseCells, parseCells, hm, ih hms.symm]

/-- The header's two values and the tokens of the lines after it. -/
theorem parseHeader_map_eq_of_tokens {ls ms : List Text} (h : ls.map tokensOf = ms.map tokensOf) :
    (parseHeader ls).map (fun r => (r.1, r.2.1, r.2.2.map tokensOf)) =
      (parseHeader ms).map (fun r => (r.1, r.2.1, r.2.2.map tokensOf)) := by
  induction ls generalizing ms with
  | nil => rw [List.map_eq_nil_iff.mp h.symm]
  | cons l ls ih =>
    obtain ⟨m, ms, rfl, hm, hms⟩ := List.map_eq_cons_iff.mp h.symm
    rw [parseHeader, parseHeader, hm]
    split
    · exact ih hms.symm
    · split
      · simp [hms]
      · rfl
    · rfl

/-- Two texts whose lines have the same tokens, and are readable alike, hold the same description. -/
theorem parseDescription_eq_of_tokens {lower : Bool} {t u : Text}
    (hreadable : (splitAtChar '\n' t).all readableLine = (splitAtChar '\n' u).all readableLine)
    (htokens : (splitAtChar '\n' t).map tokensOf = (splitAtChar '\n' u).map tokensOf) :
    parseDescription lower t = parseDescription lower u := by
  have hheader := parseHeader_map_eq_of_tokens htokens
  rw [parseDescription, parseDescription, hreadable]
  congr 1
  cases ht : parseHeader (splitAtChar '\n' t) <;> cases hu : parseHeader (splitAtChar '\n' u) <;>
    simp only [ht, hu, Option.map_none, Option.map_some, Option.some_inj, Prod.mk.injEq, reduceCtorEq] at hheader ⊢
  case some.some r q =>
    obtain ⟨hp, hw, hls⟩ := hheader
    rw [hp, hw, parseCells_eq_of_tokens hls]

/-! ### Discarded comments -/

theorem splitAtChar_after_lines {before : Text} (h : before = [] ∨ before.getLast? = some '\n') :
    ∃ ls, ∀ t, splitAtChar '\n' (before ++ t) = ls ++ splitAtChar '\n' t := by
  obtain rfl | hlast := h
  · exact ⟨[], fun _ => rfl⟩
  · obtain ⟨front, rfl⟩ := List.getLast?_eq_some_iff.mp hlast
    refine ⟨splitAtChar '\n' front, fun t => ?_⟩
    rw [List.append_assoc, List.singleton_append, splitAtChar_concat_append]

theorem splitAtChar_before_lines {after : Text} (h : after = [] ∨ after.head? = some '\n') :
    ∃ ms, ∀ t : Text, (∀ c ∈ t, c ≠ '\n') → splitAtChar '\n' (t ++ after) = t :: ms := by
  obtain rfl | hhead := h
  · exact ⟨[], fun t ht => by rw [List.append_nil, splitAtChar_single '\n' t ht]⟩
  · obtain ⟨rest, rfl⟩ := List.head?_eq_some_iff.mp hhead
    exact ⟨splitAtChar '\n' rest, fun t ht => splitAtChar_append '\n' t rest ht⟩

/-- A line between whole lines is one piece, and the others do not depend on it. -/
theorem splitAtChar_line_in_context {before after : Text} (hbefore : before = [] ∨ before.getLast? = some '\n')
    (hafter : after = [] ∨ after.head? = some '\n') :
    ∃ ls ms, ∀ line : Text, (∀ c ∈ line, c ≠ '\n') →
      splitAtChar '\n' (before ++ line ++ after) = ls ++ line :: ms := by
  obtain ⟨ls, hls⟩ := splitAtChar_after_lines hbefore
  obtain ⟨ms, hms⟩ := splitAtChar_before_lines hafter
  exact ⟨ls, ms, fun line hline => by rw [List.append_assoc, hls, hms line hline]⟩

theorem tokensOf_append_comment {line : Text} (comment : Text) (hline : ∀ c ∈ line, c ≠ '#') :
    tokensOf (line ++ '#' :: comment) = tokensOf line := by
  rw [tokensOf, tokensOf, uncommented_append line comment hline, uncommented_eq_self line hline]

/-- A comment of ASCII characters makes no line unreadable. -/
theorem readableLine_append_comment {line comment : Text} (hline : ∀ c ∈ line, c ≠ '#')
    (hcomment : ∀ c ∈ comment, commentChar c = true) :
    readableLine (line ++ '#' :: comment) = readableLine line := by
  have hmark : ('#' :: comment).all commentChar = true :=
    List.all_eq_true.mpr (List.forall_mem_cons.mpr ⟨by decide, hcomment⟩)
  rw [readableLine, readableLine, uncommented_append line comment hline, uncommented_eq_self line hline,
    List.drop_left, List.drop_length, hmark, List.all_nil]

/-- Settles O51: the comment changes neither the tokens of its line nor whether it is readable, and no other line. -/
theorem commentsAreDiscarded : Obligations.CommentsAreDiscarded := by
  intro before line comment after s hcomment hline hbefore hafter
  obtain ⟨ls, ms, hlines⟩ := splitAtChar_line_in_context hbefore hafter
  have hmarks : ∀ c ∈ line, c ≠ '#' := fun c hc => (hline c hc).2
  have hplain := hlines line fun c hc => (hline c hc).1
  have hcommented := hlines (line ++ '#' :: comment) fun c hc => by
    rw [List.mem_append, List.mem_cons] at hc
    obtain hc | rfl | hc := hc
    · exact (hline c hc).1
    · decide
    · exact (hcomment c hc).2.1
  have hparse : parseDescription Config.acceptLowerHex (before ++ (line ++ '#' :: comment) ++ after) =
      parseDescription Config.acceptLowerHex (before ++ line ++ after) := by
    have hascii : ∀ c ∈ comment, commentChar c = true := fun c hc => by
      obtain ⟨hle, -, hreturn⟩ := hcomment c hc
      rw [commentChar, decide_eq_true hle, decide_eq_true hreturn, Bool.and_self]
    apply parseDescription_eq_of_tokens <;> rw [hplain, hcommented]
    · rw [List.all_append, List.all_append, List.all_cons, List.all_cons, readableLine_append_comment hmarks hascii]
    · rw [List.map_append, List.map_append, List.map_cons, List.map_cons, tokensOf_append_comment comment hmarks]
  refine ⟨hparse, fun hsuccess => ?_⟩
  cases hd : parseDescription Config.acceptLowerHex (before ++ line ++ after) with
  | none =>
    rw [loadFile_of_parseDescription_eq_none hd] at hsuccess
    cases hsuccess
  | some d => rw [loadFile_of_parseDescription hd, loadFile_of_parseDescription (hparse.trans hd)]

end Sys2Proof.Machine
end

