-- ==== Sys2Proof/Proofs/Snapshot.lean ====
section
/-!
PROOFS. The snapshot as text and its Load (45_host_interface.md section 5): the header and the 256 cell lines are
cut, parsed and assigned back.
-/

namespace Sys2Proof.Machine

/-! ### The lines of a snapshot -/

/-- The 256 addresses, ascending. -/
def allAddrs : List Addr := (List.range Config.memCells).map (BitVec.ofNat 8)

theorem mem_allAddrs (a : Addr) : a ∈ allAddrs :=
  List.mem_map.mpr ⟨a.toNat, List.mem_range.mpr a.isLt, by simp⟩

theorem memoryLines_eq (s : State) : memoryLines s = allAddrs.map (cellLine s) := by
  rw [memoryLines, allAddrs, List.map_map]
  rfl

theorem memoryLines_getElem? (s : State) (a : Addr) : (memoryLines s)[a.toNat]? = some (cellLine s a) := by
  have ha : a.toNat < Config.memCells := a.isLt
  rw [memoryLines, List.getElem?_map, List.getElem?_range ha, Option.map_some, BitVec.ofNat_toNat,
    BitVec.setWidth_eq]

theorem snapshotLines_length (s : State) : (snapshotLines s).length = 257 := by
  rw [snapshotLines, List.length_cons, memoryLines, List.length_map, List.length_range]
  rfl

/-! ### Two tokens on a line -/

/-- The characters of a line of two tokens. -/
theorem pair_char {x y : Text} (hx : ∀ c ∈ x, tokenChar c) (hy : ∀ c ∈ y, tokenChar c) :
    ∀ c ∈ x ++ ' ' :: y, c ≠ '\n' ∧ c ≠ '#' ∧ lineChar c = true := by
  intro c hc
  rw [List.mem_append, List.mem_cons] at hc
  obtain hc | rfl | hc := hc
  · exact (hx c hc).2
  · decide
  · exact (hy c hc).2

theorem headerLine_char (s : State) : ∀ c ∈ headerLine s, c ≠ '\n' ∧ c ≠ '#' ∧ lineChar c = true :=
  pair_char (binText_tokenChar 8 _) (binText_tokenChar 12 _)

theorem cellLine_char (s : State) (a : Addr) : ∀ c ∈ cellLine s a, c ≠ '\n' ∧ c ≠ '#' ∧ lineChar c = true :=
  pair_char (hex2_tokenChar a) (binText_tokenChar 12 _)

theorem snapshotLines_char (s : State) :
    ∀ l ∈ snapshotLines s, ∀ c ∈ l, c ≠ '\n' ∧ c ≠ '#' ∧ lineChar c = true := by
  rw [snapshotLines, memoryLines_eq, List.forall_mem_cons, List.forall_mem_map]
  exact ⟨headerLine_char s, fun a _ => cellLine_char s a⟩

/-! ### Cutting the text -/

/-- Joined lines are cut again; a final newline leaves an empty line behind. -/
theorem splitAtChar_joinLines (l : Text) (ls : List Text) (final : Bool)
    (h : ∀ l' ∈ l :: ls, ∀ c ∈ l', c ≠ '\n') :
    splitAtChar '\n' (joinLines (l :: ls) ++ finalNewline final) = l :: ls ++ if final then [[]] else [] := by
  induction ls generalizing l with
  | nil =>
    have hl : ∀ c ∈ l, c ≠ '\n' := h l List.mem_cons_self
    cases final
    · exact splitAtChar_append_of_eq_cons hl rfl |>.trans (by simp)
    · exact splitAtChar_append '\n' l [] hl
  | cons m ls ih =>
    obtain ⟨hl, hls⟩ := List.forall_mem_cons.mp h
    rw [joinLines, List.append_assoc, List.cons_append, splitAtChar_append '\n' l _ hl, ih m hls]
    · rfl
    · exact List.cons_ne_nil m ls

theorem snapshotText_lines (s : State) :
    ∃ blank : List Text, (∀ l ∈ blank, l = []) ∧
      splitAtChar '\n' (snapshotText s) = snapshotLines s ++ blank := by
  refine ⟨if Config.snapshotFinalNewline then [[]] else [], ?_,
    splitAtChar_joinLines _ _ _ fun l hl c hc => (snapshotLines_char s l hl c hc).1⟩
  split <;> simp

/-! ### Parsing the lines -/

theorem parseBinary_addrText (a : Addr) : parseBinary 8 (addrText a) = some a.toNat :=
  parseBinary_binText 8 a.toNat a.isLt

theorem parseBinary_wordText (w : Word) : parseBinary 12 (wordText w) = some w.toNat :=
  parseBinary_binText 12 w.toNat w.isLt

theorem parseHeader_headerLine (s : State) (ls : List Text) :
    parseHeader (headerLine s :: ls) = some (s.pc, s.acc, ls) := by
  have htokens : tokensOf (headerLine s) = [addrText s.pc, wordText s.acc] :=
    tokensOf_pair _ _ (binText_tokenChar 8 _) (binText_tokenChar 12 _)
  rw [parseHeader, htokens]
  simp [parseBinary_addrText, parseBinary_wordText]

/-- The assignments of a memory, one for each of the addresses. -/
def cellAssignments (s : State) (as : List Addr) : List (Addr × Word) := as.map fun a => (a, s.readMem a)

theorem parseCells_blank {blank : List Text} (lower : Bool) (h : ∀ l ∈ blank, l = []) :
    parseCells lower blank = some [] := by
  induction blank with
  | nil => rfl
  | cons l blank ih =>
    obtain ⟨rfl, hblank⟩ := List.forall_mem_cons.mp h
    rw [parseCells, tokensOf_blank (.inl rfl)]
    exact ih hblank

theorem parseCells_cellLines (s : State) (as : List Addr) {blank : List Text} (h : ∀ l ∈ blank, l = []) :
    parseCells false (as.map (cellLine s) ++ blank) = some (cellAssignments s as) := by
  induction as with
  | nil => exact parseCells_blank false h
  | cons a as ih =>
    have htokens : tokensOf (cellLine s a) = [hex2 a, wordText (s.readMem a)] :=
      tokensOf_pair _ _ (hex2_tokenChar a) (binText_tokenChar 12 _)
    rw [List.map_cons, List.cons_append, parseCells, htokens]
    simp [parseAddr_hex2, parseBinary_wordText, ih, cellAssignments]

/-- The description a snapshot holds: the registers and all 256 cells. -/
theorem parseDescription_snapshotText (s : State) :
    parseDescription Config.acceptLowerHex (snapshotText s) =
      some { pc := s.pc, acc := s.acc, cells := cellAssignments s allAddrs } := by
  obtain ⟨blank, hblank, hlines⟩ := snapshotText_lines s
  have hreadable : (splitAtChar '\n' (snapshotText s)).all readableLine = true := by
    rw [hlines, List.all_append, Bool.and_eq_true, List.all_eq_true, List.all_eq_true]
    refine ⟨fun l hl => readableLine_of_lineChar l fun c hc => (snapshotLines_char s l hl c hc).2, fun l hl => ?_⟩
    rw [hblank l hl]
    rfl
  have hcells : parseCells Config.acceptLowerHex (memoryLines s ++ blank) = some (cellAssignments s allAddrs) := by
    rw [memoryLines_eq]
    exact parseCells_cellLines s allAddrs hblank
  rw [parseDescription, if_pos hreadable, hlines, snapshotLines, List.cons_append, parseHeader_headerLine]
  simp [hcells]

/-! ### The memory assigned back -/

/-- Assigning each listed address its own word leaves that word there. -/
theorem lastAssigned_cellAssignments (s : State) (as : List Addr) (a : Addr) (w : Word) :
    lastAssigned a w (cellAssignments s as) = if a ∈ as then s.readMem a else w := by
  induction as generalizing w with
  | nil => rfl
  | cons b as ih =>
    calc lastAssigned a w (cellAssignments s (b :: as))
        = lastAssigned a (if b = a then s.readMem b else w) (cellAssignments s as) := rfl
      _ = if a ∈ as then s.readMem a else if b = a then s.readMem b else w := ih _
      _ = if a ∈ b :: as then s.readMem a else w := by
        by_cases hb : b = a
        · simp [hb]
        · simp [hb, Ne.symm hb]

theorem ofDescription_cellAssignments {s : State} (h : s.canonical) :
    State.ofDescription { pc := s.pc, acc := s.acc, cells := cellAssignments s allAddrs } =
      { s with trace := [], loaded := true } := by
  have hmem : applyCells [] (cellAssignments s allAddrs) = s.mem :=
    Memory.ext_of_wf (applyCells_wf _ [] rfl) h fun a => by
      rw [applyCells_read, lastAssigned_cellAssignments, if_pos (mem_allAddrs a)]
      rfl
  rw [State.ofDescription, hmem]

/-- Settles O45: the text is cut into the snapshot's lines, which parse to the registers and all 256 cells
(`parseDescription_snapshotText`); assigned to a memory of zeros they are the canonical memory itself. -/
theorem snapshotRoundTrip : Obligations.SnapshotRoundTrip := by
  refine fun s u hs => ⟨snapshotLines_length s, rfl, memoryLines_getElem? s, rfl, rfl, ?load⟩
  case load =>
    rw [loadFile_of_parseDescription (parseDescription_snapshotText s), ofDescription_cellAssignments hs]

end Sys2Proof.Machine
end
